-- ==== Sys2Proof/Word.lean ====
section
/-! DEFINITION. The widths the spec fixes (R12, R13): bytes, bus addresses, the packed transaction word. -/

namespace Sys2Proof

/-- A `u8` (R13). -/
abbrev Byte := BitVec 8

/-- A bus address, a `u16` (R12, R13): the content of the source's `AddressValue` (R110). -/
abbrev Addr := BitVec 16

/-- The packed transaction word `T` of format BUS (R80; the packing is the spec's decision D10, log 13). -/
abbrev BusWord := BitVec 25

end Sys2Proof
end

