-- ==== Sys2Proof/Machine/AddressValue.lean ====
section
/-! DEFINITION. The 16-bit address value and its helpers (spec/40_address_value.md, R110 to R115). -/

namespace Sys2Proof.AddressValue

/-- `AV(n)` (R110): the address value with content `n`. It cannot fail, and its content never exceeds 0xFFFF. -/
def ofRaw (n : BitVec 16) : Addr := n

/-- `inRange(a, lo, hi)` (R111): both bounds are inclusive. -/
def inRange (a : Addr) (lo hi : BitVec 16) : Bool := lo.toNat ≤ a.toNat && a.toNat ≤ hi.toNat

/-- `a + k` (R112): the exact sum where it fits 16 bits. Where it does not the spec gives it no meaning (U1, conflict
C6), so there is no result. No instruction uses it. Log 17. -/
def add? (a : Addr) (k : Nat) : Option Addr :=
  if a.toNat + k ≤ 0xFFFF then some (BitVec.ofNat 16 (a.toNat + k)) else none

/-- `a - k` (R113): saturates at 0. -/
def satSub (a : Addr) (k : Nat) : Addr := BitVec.ofNat 16 (a.toNat - k)

/-- `a == n` (R114): an unsigned comparison with a raw integer, which may exceed 0xFFFF. -/
def eqRaw (a : Addr) (n : Nat) : Bool := decide (a.toNat = n)

/-- `a != n` (R114). -/
def neRaw (a : Addr) (n : Nat) : Bool := decide (a.toNat ≠ n)

/-- `a < n` (R114). -/
def ltRaw (a : Addr) (n : Nat) : Bool := decide (a.toNat < n)

/-- `a <= n` (R114). -/
def leRaw (a : Addr) (n : Nat) : Bool := decide (a.toNat ≤ n)

/-- `a > n` (R114). -/
def gtRaw (a : Addr) (n : Nat) : Bool := decide (a.toNat > n)

/-- `a >= n` (R114). -/
def geRaw (a : Addr) (n : Nat) : Bool := decide (a.toNat ≥ n)

end Sys2Proof.AddressValue
end

