-- ==== Sys2Proof/Config.lean ====
section
/-! DEFINITION. The parameters of R8 to R11 that this model fixes, each with its log entry. The image of a running
cartridge is NOT a parameter: it is state, and every statement is about every image. -/

namespace Sys2Proof.Config

/-- `HEADER_BASE` (R10): the default the spec gives its open parameter. PRESUMED (the spec: general knowledge, D6). Log 10. -/
def headerBase : Nat := 0x100

/-- `RESET_RAMEN` (R11). DESIGN CHOICE of the spec (D2). Log 6. -/
def resetRamen : Byte := 0x00#8

/-- The value of `ROMB` after load: the source's own "initial value 1" (R25, R33). -/
def resetRomb : Byte := 0x01#8

/-- `RESET_RAMB` (R11). DESIGN CHOICE of the spec (D2). Log 6. -/
def resetRamb : Byte := 0x00#8

/-- `RESET_MODE` (R11). DESIGN CHOICE of the spec (D2). Log 6. -/
def resetMode : Byte := 0x00#8

/-- `RAMB_MASK` (R11). DESIGN CHOICE of the spec (D3, conflict C3). Log 7. -/
def rambMask : Byte := 0x03#8

/-- `ROMHI_SHIFT` (R11). DESIGN CHOICE of the spec (D4, conflict C1). Log 8. -/
def romhiShift : Nat := 5

/-- `CAPACITY` of the image behind `State.reset` (R8: an open parameter). DESIGN CHOICE: the smallest capacity at which
the capacity guard never fails (R53). Log 5. -/
def bootCapacity : Nat := 0x10000

/-- The type byte of the image behind `State.reset`: the first MBC1 value of R88. DESIGN CHOICE. Log 5. -/
def bootType : Byte := 0x01#8

/-- The checksum byte that an otherwise zero header with `bootType` needs to be accepted (R122, R123):
`(-1 - 25) mod 256`. Log 5. -/
def bootChecksum : Byte := 0xE6#8

end Sys2Proof.Config
end

