-- ==== Sys2Proof/Syntax.lean ====
section
/-! DEFINITION. The instructions: one constructor for each row of spec/opcode_table.json. A bus transaction carries its
whole 16-bit address; that the address lies in the row's window is WellFormed's check. -/

namespace Sys2Proof

/-- The controller variant, fixed at load (R21); it selects the decode table of a transaction (R92). -/
inductive Variant where
  | nobank
  | mbc1
  deriving DecidableEq, Repr

/-- The 37 operations of the opcode table, in its order. Bus transactions (format BUS) first, then the values of the
type byte (format CT). -/
inductive Instr where
  /-- RD.ROM0 (R150). -/
  | rdRom0 (a : Addr)
  /-- RD.ROMX (R151). -/
  | rdRomx (a : Addr)
  /-- RD.UNMAPPED.8 (R153). -/
  | rdUnmapped8 (a : Addr)
  /-- RD.RAM (R152). -/
  | rdRam (a : Addr)
  /-- RD.UNMAPPED.C (R154). -/
  | rdUnmappedC (a : Addr)
  /-- WR.RAMEN (R160). -/
  | wrRamen (a : Addr) (d : Byte)
  /-- WR.ROMB (R161). -/
  | wrRomb (a : Addr) (d : Byte)
  /-- WR.RAMB (R162). -/
  | wrRamb (a : Addr) (d : Byte)
  /-- WR.MODE (R163). -/
  | wrMode (a : Addr) (d : Byte)
  /-- WR.UNMAPPED.8 (R165). -/
  | wrUnmapped8 (a : Addr) (d : Byte)
  /-- WR.RAM (R164). -/
  | wrRam (a : Addr) (d : Byte)
  /-- WR.UNMAPPED.C (R166). -/
  | wrUnmappedC (a : Addr) (d : Byte)
  /-- NB.RD.ROM (R142, R145). -/
  | nbRdRom (a : Addr)
  /-- NB.RD.UNMAPPED (R143). -/
  | nbRdUnmapped (a : Addr)
  /-- NB.WR (R144). -/
  | nbWr (a : Addr) (d : Byte)
  /-- CT.NOBANK, type byte 0x00 (R171). -/
  | ctNobank
  /-- CT.MBC1, type byte 0x01 (R172). -/
  | ctMbc1T01
  /-- CT.MBC1, type byte 0x02 (R172). -/
  | ctMbc1T02
  /-- CT.MBC1, type byte 0x03 (R172). -/
  | ctMbc1T03
  /-- CT.MBC2, type byte 0x05 (R173). -/
  | ctMbc2T05
  /-- CT.MBC2, type byte 0x06 (R173). -/
  | ctMbc2T06
  /-- CT.MBC3, type byte 0x0F (R174). -/
  | ctMbc3T0F
  /-- CT.MBC3, type byte 0x10 (R174). -/
  | ctMbc3T10
  /-- CT.MBC3, type byte 0x11 (R174). -/
  | ctMbc3T11
  /-- CT.MBC3, type byte 0x12 (R174). -/
  | ctMbc3T12
  /-- CT.MBC3, type byte 0x13 (R174). -/
  | ctMbc3T13
  /-- CT.MBC4, type byte 0x15 (R175). -/
  | ctMbc4T15
  /-- CT.MBC4, type byte 0x16 (R175). -/
  | ctMbc4T16
  /-- CT.MBC4, type byte 0x17 (R175). -/
  | ctMbc4T17
  /-- CT.MBC5, type byte 0x19 (R176). -/
  | ctMbc5T19
  /-- CT.MBC5, type byte 0x1A (R176). -/
  | ctMbc5T1A
  /-- CT.MBC5, type byte 0x1B (R176). -/
  | ctMbc5T1B
  /-- CT.MBC5, type byte 0x1C (R176). -/
  | ctMbc5T1C
  /-- CT.MBC5, type byte 0x1D (R176). -/
  | ctMbc5T1D
  /-- CT.MBC5, type byte 0x1E (R176). -/
  | ctMbc5T1E
  /-- CT.HUC1, type byte 0xFF (R177). -/
  | ctHuc1
  /-- CT.UNKNOWN, every type byte that no other row names (R178). -/
  | ctUnknown (t : Byte)
  deriving DecidableEq, Repr

/-- What a bus operation asks for: a read or a write (R80's direction); none for a type byte. -/
inductive Direction where
  | read
  | write
  deriving DecidableEq, Repr

/-- The variant whose decode table the operation belongs to (R84 to R86); none for a type byte (format CT). -/
def Instr.variant? : Instr → Option Variant
  | .rdRom0 _ | .rdRomx _ | .rdUnmapped8 _ | .rdRam _ | .rdUnmappedC _ => some .mbc1
  | .wrRamen _ _ | .wrRomb _ _ | .wrRamb _ _ | .wrMode _ _ => some .mbc1
  | .wrUnmapped8 _ _ | .wrRam _ _ | .wrUnmappedC _ _ => some .mbc1
  | .nbRdRom _ | .nbRdUnmapped _ | .nbWr _ _ => some .nobank
  | .ctNobank | .ctMbc1T01 | .ctMbc1T02 | .ctMbc1T03 => none
  | .ctMbc2T05 | .ctMbc2T06 => none
  | .ctMbc3T0F | .ctMbc3T10 | .ctMbc3T11 | .ctMbc3T12 | .ctMbc3T13 => none
  | .ctMbc4T15 | .ctMbc4T16 | .ctMbc4T17 => none
  | .ctMbc5T19 | .ctMbc5T1A | .ctMbc5T1B | .ctMbc5T1C | .ctMbc5T1D | .ctMbc5T1E => none
  | .ctHuc1 | .ctUnknown _ => none

/-- The direction of a bus operation (R80); none for a type byte. -/
def Instr.direction? : Instr → Option Direction
  | .rdRom0 _ | .rdRomx _ | .rdUnmapped8 _ | .rdRam _ | .rdUnmappedC _ => some .read
  | .nbRdRom _ | .nbRdUnmapped _ => some .read
  | .wrRamen _ _ | .wrRomb _ _ | .wrRamb _ _ | .wrMode _ _ => some .write
  | .wrUnmapped8 _ _ | .wrRam _ _ | .wrUnmappedC _ _ | .nbWr _ _ => some .write
  | .ctNobank | .ctMbc1T01 | .ctMbc1T02 | .ctMbc1T03 => none
  | .ctMbc2T05 | .ctMbc2T06 => none
  | .ctMbc3T0F | .ctMbc3T10 | .ctMbc3T11 | .ctMbc3T12 | .ctMbc3T13 => none
  | .ctMbc4T15 | .ctMbc4T16 | .ctMbc4T17 => none
  | .ctMbc5T19 | .ctMbc5T1A | .ctMbc5T1B | .ctMbc5T1C | .ctMbc5T1D | .ctMbc5T1E => none
  | .ctHuc1 | .ctUnknown _ => none

end Sys2Proof
end

