-- ==== Sys2Proof/Machine/State.lean ====
section
/-! DEFINITION. The state (R20 to R33), plain data, and `State.reset`. -/

namespace Sys2Proof.Machine

/-- The seven error kinds (R180). An error is the reply of the operation that failed, not a stop of the machine. -/
inductive ErrorKind where
  /-- R181: malformed or too short header, wrong length. -/
  | formatError
  /-- R182: header checksum mismatch. -/
  | checksumError
  /-- R183: the loader cannot deliver the image. -/
  | ioError
  /-- R184: address outside any handled window or beyond the image. -/
  | addressError
  /-- R185: write to a NOBANK cartridge. -/
  | writeError
  /-- R186: RAM access with the gate closed. -/
  | ramDisabledError
  /-- R187: the type byte maps to no implemented controller. -/
  | unsupportedCartridgeError
  deriving DecidableEq, Repr

/-- The result of a request (R15): `Ok(b)` of a read, `Ok` of a write (and of a LOAD that built a cartridge),
`Err(kind)`. -/
inductive Reply where
  | data (b : Byte)
  | ok
  | err (k : ErrorKind)
  deriving DecidableEq, Repr

/-- The four byte-wide registers of an MBC1 cartridge (R24 to R27), each stored whole. -/
structure Mbc1Regs where
  ramen : Byte
  romb : Byte
  ramb : Byte
  mode : Byte
  deriving DecidableEq, Repr

/-- The controller of a cartridge: the tag is `variant` (R21), and the registers exist only under `mbc1` (R20). -/
inductive Controller where
  | nobank
  | mbc1 (r : Mbc1Regs)
  deriving DecidableEq, Repr

/-- The component `variant` of the spec's state tuple (R20, R21). -/
def Controller.variant : Controller → Variant
  | .nobank => .nobank
  | .mbc1 _ => .mbc1

/-- Bytes by offset: strictly rising, and no entry equal to what an unlisted offset reads as (0x00, log 18). -/
abbrev Memory := List Host.Cell

/-- The component `image` (R22): `CAPACITY` bytes (R8). Every offset below `capacity` holds a byte. -/
structure Image where
  capacity : Nat
  cells : Memory
  deriving DecidableEq, Repr

/-- The component `hdr` (R23): exactly 80 bytes (R12). -/
abbrev Header := Vector Byte 80

/-- One cartridge: the tuple of R20. -/
structure Cartridge where
  image : Image
  hdr : Header
  ctrl : Controller
  deriving DecidableEq, Repr

/-- The variant tag of a cartridge (R21). -/
def Cartridge.variant (c : Cartridge) : Variant := c.ctrl.variant

/-- What LOAD has between its step 6 and its step 7 (R211): the image, and the header that `PARSE` accepted. Log 3. -/
structure Loading where
  image : Image
  hdr : Header
  deriving DecidableEq, Repr

/-- What the loader offers (R130): the bytes in memory, or a stream, which may be unreadable or fail to seek (R131).
Log 22. -/
inductive Source where
  | memory (bytes : List Byte)
  | stream (readable seekable : Bool) (bytes : List Byte)
  deriving DecidableEq, Repr

/-- A request at the block's interface: a transaction of the bus master (R80) or a LOAD of the host (R211). -/
inductive Request where
  | bus (t : BusWord)
  | load (src : Source)
  deriving DecidableEq, Repr

/-- The state of the slot a cartridge is built in, and of its interface. `cart` is the spec's state (R20), absent where
a failed LOAD built none (R193). `loading`, `queue` and `reply` are the interface's: see logs 1, 2 and 3. -/
structure State where
  cart : Option Cartridge
  loading : Option Loading
  queue : List Request
  reply : Option Reply
  deriving DecidableEq, Repr

/-- The one fault of the model. None of the spec's errors is a fault: each is a reply (R193, R194). -/
inductive Fault where
  /-- Raised by `step` and by every bus meaning when a transaction is served and no cartridge exists: the spec says no
  transaction can be issued then (R211), so there is nothing that could answer. Safe. Log 16. -/
  | noCartridge
  deriving DecidableEq, Repr

/-- The refusals. `step` reaches none of them (the obligation `StepStopsOnlyWithoutACartridge`). -/
inductive Refusal where
  /-- Raised by an arm of `exec` without a meaning; there is none. Safe. -/
  | notModelled (mnemonic : String)
  /-- Raised by a bus meaning of one variant on a cartridge of the other, which the decoder never asks for (R92). Safe.
  Log 16. -/
  | wrongVariant
  /-- Raised by a selector meaning when no accepted header awaits the selector, which then never runs (R170). Safe.
  Log 16. -/
  | noAcceptedHeader
  deriving DecidableEq, Repr

/-- The registers right after LOAD of an MBC1 cartridge (R33). RAMEN, RAMB, MODE: the spec's decision D2. Log 6. -/
def Mbc1Regs.afterLoad : Mbc1Regs :=
  { ramen := Config.resetRamen, romb := Config.resetRomb, ramb := Config.resetRamb, mode := Config.resetMode }

/-- The header of the image behind `State.reset`: zero but for the type byte and the checksum it needs. DESIGN CHOICE,
`IMAGE` being an open parameter (R9). Log 5. -/
def Header.boot : Header :=
  ((Vector.replicate 80 0x00#8).set 0x47 Config.bootType).set 0x4D Config.bootChecksum

/-- The image behind `State.reset`: the same bytes, at `HEADER_BASE`, in `bootCapacity` bytes. Log 5. -/
def Image.boot : Image :=
  { capacity := Config.bootCapacity,
    cells := [(Config.headerBase + 0x47, Config.bootType), (Config.headerBase + 0x4D, Config.bootChecksum)] }

/-- The cartridge that LOAD builds from `Image.boot`. -/
def Cartridge.boot : Cartridge :=
  { image := Image.boot, hdr := Header.boot, ctrl := .mbc1 Mbc1Regs.afterLoad }

/-- Right after the only reset event, a LOAD (R210, R33): of an MBC1 cartridge (R212), with nothing requested yet. -/
def State.reset : State :=
  { cart := some Cartridge.boot, loading := none, queue := [], reply := none }

end Sys2Proof.Machine
end

