-- ==== Sys2Proof/Machine/Flags.lean ====
section
/-! DEFINITION. The conditions the rules test. This hardware has no flags (R31); what other machines keep in flags is
computed here from the registers: the capacity guard, the RAM gate, the banking mode. -/

namespace Sys2Proof.Machine

/-- `CapOk(a) = (a < CAPACITY)` (R53). -/
def capOk (img : Image) (a : Addr) : Bool := AddressValue.ltRaw a img.capacity

/-- `RamOn = ((reg[RAMEN] & 0x0F) == 0x0A)` (R56): only the low nibble counts. -/
def ramOn (r : Mbc1Regs) : Bool := decide (r.ramen &&& 0x0F#8 = 0x0A#8)

/-- `MODE == 0`, ROM banking mode; every other value is RAM banking mode (R27, conflict C4). -/
def romMode (r : Mbc1Regs) : Bool := decide (r.mode = 0x00#8)

end Sys2Proof.Machine
end

