-- ==== Sys2Proof/Machine/Operands.lean ====
section
/-! DEFINITION. The bank translation: the image offset of each window (R54, R55, R57, R89), on naturals, never
wrapping (R58). -/

namespace Sys2Proof.Machine

/-- The bits of `RAMB` that take part in any address (R26; the spec's decision D3, log 7). -/
def rambBits (r : Mbc1Regs) : Nat := (r.ramb &&& Config.rambMask).toNat

/-- The five bits of `ROMB` that select a bank (R25). -/
def rombBits (r : Mbc1Regs) : Nat := (r.romb &&& 0x1F#8).toNat

/-- `RomIdx` (R55): seven bits in ROM banking mode (conflict C1, the spec's decision D4, log 8), else five. -/
def romIdx (r : Mbc1Regs) : Nat :=
  if romMode r then (rambBits r <<< Config.romhiShift) ||| rombBits r else rombBits r

/-- The fixed window's offset is the address itself, in either mode (R54). -/
def rom0Off (a : Addr) : Nat := a.toNat

/-- The switchable window's offset, `RomIdx * 0x4000 + (a - 0x4000)` (R55). No masking by a declared ROM size (R55,
the spec's decision D5). -/
def romxOff (r : Mbc1Regs) (a : Addr) : Nat := romIdx r * 0x4000 + (AddressValue.satSub a 0x4000).toNat

/-- `RamOff(a)` (R57): the address itself in ROM banking mode (conflict C8), else a slice of 8 KiB. -/
def ramOff (r : Mbc1Regs) (a : Addr) : Nat :=
  if romMode r then a.toNat else rambBits r * 0x2000 + (AddressValue.satSub a 0xA000).toNat

end Sys2Proof.Machine
end

