-- ==== Sys2Proof/Machine/Ops.lean ====
section
/-! DEFINITION. The named operations: memory, image, registers, and raising an error (R14, R15, R193). -/

namespace Sys2Proof.Machine

/-- What an unlisted offset reads as. It is how an image is written down, and no assumption about one: LOAD delivers
every byte (R8, R22). Log 18. -/
def Memory.unlisted : Byte := 0x00#8

/-- The byte at an offset. -/
def Memory.read : Memory → Nat → Byte
  | [], _ => Memory.unlisted
  | (k, b) :: rest, off => if k = off then b else Memory.read rest off

/-- `cell` in front, unless it says what an unlisted offset says anyway. -/
def Memory.cons (off : Nat) (v : Byte) (rest : Memory) : Memory :=
  if v = Memory.unlisted then rest else (off, v) :: rest

/-- Set the byte at an offset, keeping the canonical form. -/
def Memory.write : Memory → Nat → Byte → Memory
  | [], off, v => Memory.cons off v []
  | (k, b) :: rest, off, v =>
    if off < k then Memory.cons off v ((k, b) :: rest)
    else if k = off then Memory.cons off v rest
    else (k, b) :: Memory.write rest off v

/-- The canonical form: offsets at least `lo` and strictly rising, no entry that an unlisted offset would read as. -/
def Memory.wfFrom : Nat → Memory → Bool
  | _, [] => true
  | lo, (k, b) :: rest => decide (lo ≤ k) && decide (b ≠ Memory.unlisted) && Memory.wfFrom (k + 1) rest

/-- The canonical form of a whole memory. -/
def Memory.wf (m : Memory) : Bool := Memory.wfFrom 0 m

/-- The canonical form of a byte sequence that begins at offset `n`. -/
def Memory.ofBytesFrom : Nat → List Byte → Memory
  | _, [] => []
  | n, b :: rest => Memory.cons n b (Memory.ofBytesFrom (n + 1) rest)

/-- `MemRead(off, 1)` (R14), where `off < CAPACITY`. -/
def Image.read (img : Image) (off : Nat) : Byte := Memory.read img.cells off

/-- `MemWrite(off, 1, v)` (R14), where `off < CAPACITY`. -/
def Image.write (img : Image) (off : Nat) (v : Byte) : Image := { img with cells := Memory.write img.cells off v }

/-- The image is canonical and lists nothing at or above `CAPACITY`. -/
def Image.wf (img : Image) : Bool :=
  Memory.wf img.cells && img.cells.all fun cell => decide (cell.1 < img.capacity)

/-- The image a byte sequence is: `CAPACITY` is its length (R8, R211 steps 2 and 8). -/
def Image.ofBytes (bytes : List Byte) : Image :=
  { capacity := bytes.length, cells := Memory.ofBytesFrom 0 bytes }

/-- The byte a collaborator reads out of the image (R71); none at or above `CAPACITY`. -/
def Image.byte? (img : Image) (off : Nat) : Option Byte :=
  if off < img.capacity then some (img.read off) else none

/-- `reg[RAMEN] <- v` (R14, R160). -/
def Mbc1Regs.setRamen (r : Mbc1Regs) (v : Byte) : Mbc1Regs := { r with ramen := v }

/-- `reg[ROMB] <- v` (R14). -/
def Mbc1Regs.setRomb (r : Mbc1Regs) (v : Byte) : Mbc1Regs := { r with romb := v }

/-- `reg[RAMB] <- v` (R14, R162). -/
def Mbc1Regs.setRamb (r : Mbc1Regs) (v : Byte) : Mbc1Regs := { r with ramb := v }

/-- `reg[MODE] <- v` (R14, R163). -/
def Mbc1Regs.setMode (r : Mbc1Regs) (v : Byte) : Mbc1Regs := { r with mode := v }

/-- What `WR.ROMB` stores: the byte whole, but 0x01 for the byte 0x00 (R161; the test is on the whole byte, C2). -/
def coerceRomb (d : Byte) : Byte := if d = 0x00#8 then 0x01#8 else d

/-- The cartridge with other registers. -/
def Cartridge.setRegs (c : Cartridge) (r : Mbc1Regs) : Cartridge := { c with ctrl := .mbc1 r }

/-- The cartridge with another image. -/
def Cartridge.setImage (c : Cartridge) (img : Image) : Cartridge := { c with image := img }

/-- The slot's cartridge. -/
def State.setCart (s : State) (c : Option Cartridge) : State := { s with cart := c }

/-- What awaits the selector. -/
def State.setLoading (s : State) (l : Option Loading) : State := { s with loading := l }

/-- The requests not yet served. -/
def State.setQueue (s : State) (q : List Request) : State := { s with queue := q }

/-- The result returned. -/
def State.setReply (s : State) (r : Option Reply) : State := { s with reply := r }

/-- The result of an operation that succeeds (R15). -/
def answer (r : Reply) (s : State) : Host.Outcome State Fault Refusal := .next (s.setReply (some r))

/-- `raise K` (R15): the one way an error is taken. The reply is `Err(K)`; nothing else changes, nothing is saved and
control goes nowhere (R193). There is no return from it: the next request is served as if nothing had been (R194). -/
def raise (k : ErrorKind) (s : State) : Host.Outcome State Fault Refusal := answer (.err k) s

/-- Run an MBC1 operation on the cartridge and its registers. The decoder asks for one only on an MBC1 cartridge (R92). -/
def onMbc1 (s : State) (body : Cartridge → Mbc1Regs → Host.Outcome State Fault Refusal) :
    Host.Outcome State Fault Refusal :=
  match s.cart with
  | none => .fault .noCartridge
  | some c =>
    match c.ctrl with
    | .mbc1 r => body c r
    | .nobank => .refused .wrongVariant

/-- Run a NOBANK operation on the cartridge. The decoder asks for one only on a NOBANK cartridge (R92). -/
def onNobank (s : State) (body : Cartridge → Host.Outcome State Fault Refusal) : Host.Outcome State Fault Refusal :=
  match s.cart with
  | none => .fault .noCartridge
  | some c =>
    match c.ctrl with
    | .nobank => body c
    | .mbc1 _ => .refused .wrongVariant

/-- Run the selector on the accepted header (R170). -/
def onAccepted (s : State) (body : Loading → Host.Outcome State Fault Refusal) : Host.Outcome State Fault Refusal :=
  match s.loading with
  | some l => body l
  | none => .refused .noAcceptedHeader

/-- The capacity guard, before everything else of an MBC1 transaction (R53, R83, R190). -/
def guarded (c : Cartridge) (a : Addr) (s : State) (body : Host.Outcome State Fault Refusal) :
    Host.Outcome State Fault Refusal :=
  if capOk c.image a then body else raise .addressError s

/-- The RAM gate, after the guard and before any offset is computed (R56, R190). -/
def gated (r : Mbc1Regs) (s : State) (body : Host.Outcome State Fault Refusal) : Host.Outcome State Fault Refusal :=
  if ramOn r then body else raise .ramDisabledError s

/-- `return Ok(MemRead(off, 1))`, behind the offset validation (R58; its error kind and place are the spec's decision
D1, log 9). -/
def readImage (c : Cartridge) (off : Nat) (s : State) : Host.Outcome State Fault Refusal :=
  if off < c.image.capacity then answer (.data (c.image.read off)) s else raise .addressError s

/-- `MemWrite(off, 1, v); return Ok`, behind the offset validation (R58). -/
def writeImage (c : Cartridge) (off : Nat) (v : Byte) (s : State) : Host.Outcome State Fault Refusal :=
  if off < c.image.capacity then answer .ok (s.setCart (some (c.setImage (c.image.write off v))))
  else raise .addressError s

/-- `reg[X] <- v; return Ok`. -/
def writeRegs (c : Cartridge) (r : Mbc1Regs) (s : State) : Host.Outcome State Fault Refusal :=
  answer .ok (s.setCart (some (c.setRegs r)))

end Sys2Proof.Machine
end

