-- ==== Sys2Proof/Machine/Mbc1Read.lean ====
section
/-! DEFINITION. MBC1 read transactions (spec/43_mbc1_read.md). -/

namespace Sys2Proof.Machine

/-- RD.ROM0 (R150): the fixed window. -/
def execRdRom0 (a : Addr) (s : State) : Host.Outcome State Fault Refusal :=
  onMbc1 s fun c _ => guarded c a s (readImage c (rom0Off a) s)

/-- RD.ROMX (R151): the switchable window. -/
def execRdRomx (a : Addr) (s : State) : Host.Outcome State Fault Refusal :=
  onMbc1 s fun c r => guarded c a s (readImage c (romxOff r a) s)

/-- RD.UNMAPPED.8 (R153). -/
def execRdUnmapped8 (_ : Addr) (s : State) : Host.Outcome State Fault Refusal :=
  onMbc1 s fun _ _ => raise .addressError s

/-- RD.RAM (R152): the external-RAM window. -/
def execRdRam (a : Addr) (s : State) : Host.Outcome State Fault Refusal :=
  onMbc1 s fun c r => guarded c a s (gated r s (readImage c (ramOff r a) s))

/-- RD.UNMAPPED.C (R154). -/
def execRdUnmappedC (_ : Addr) (s : State) : Host.Outcome State Fault Refusal :=
  onMbc1 s fun _ _ => raise .addressError s

end Sys2Proof.Machine
end

