-- ==== Sys2Proof/Machine/Mbc1Write.lean ====
section
/-! DEFINITION. MBC1 write transactions: the bank-switch state machine (spec/44_mbc1_write.md). -/

namespace Sys2Proof.Machine

/-- WR.RAMEN (R160): the byte verbatim. -/
def execWrRamen (a : Addr) (d : Byte) (s : State) : Host.Outcome State Fault Refusal :=
  onMbc1 s fun c r => guarded c a s (writeRegs c (r.setRamen d) s)

/-- WR.ROMB (R161): 0x00 is stored as 0x01. -/
def execWrRomb (a : Addr) (d : Byte) (s : State) : Host.Outcome State Fault Refusal :=
  onMbc1 s fun c r => guarded c a s (writeRegs c (r.setRomb (coerceRomb d)) s)

/-- WR.RAMB (R162): the byte verbatim. -/
def execWrRamb (a : Addr) (d : Byte) (s : State) : Host.Outcome State Fault Refusal :=
  onMbc1 s fun c r => guarded c a s (writeRegs c (r.setRamb d) s)

/-- WR.MODE (R163): the byte verbatim. -/
def execWrMode (a : Addr) (d : Byte) (s : State) : Host.Outcome State Fault Refusal :=
  onMbc1 s fun c r => guarded c a s (writeRegs c (r.setMode d) s)

/-- WR.UNMAPPED.8 (R165). -/
def execWrUnmapped8 (_ : Addr) (_ : Byte) (s : State) : Host.Outcome State Fault Refusal :=
  onMbc1 s fun _ _ => raise .addressError s

/-- WR.RAM (R164): one byte of the image, at the offset a read of the same address would use. -/
def execWrRam (a : Addr) (d : Byte) (s : State) : Host.Outcome State Fault Refusal :=
  onMbc1 s fun c r => guarded c a s (gated r s (writeImage c (ramOff r a) d s))

/-- WR.UNMAPPED.C (R166). -/
def execWrUnmappedC (_ : Addr) (_ : Byte) (s : State) : Host.Outcome State Fault Refusal :=
  onMbc1 s fun _ _ => raise .addressError s

end Sys2Proof.Machine
end

