-- ==== Sys2Proof/Machine/Nobank.lean ====
section
/-! DEFINITION. The NOBANK variant (spec/42_memory_device_nobank.md). -/

namespace Sys2Proof.Machine

/-- NB.RD.ROM (R142); beyond a short image `AddressError` (R145, the spec's decision D7, log 11). -/
def execNbRdRom (a : Addr) (s : State) : Host.Outcome State Fault Refusal :=
  onNobank s fun c => readImage c a.toNat s

/-- NB.RD.UNMAPPED (R143): whatever the capacity is. -/
def execNbRdUnmapped (_ : Addr) (s : State) : Host.Outcome State Fault Refusal :=
  onNobank s fun _ => raise .addressError s

/-- NB.WR (R144): always `WriteError`, no address check first. -/
def execNbWr (_ : Addr) (_ : Byte) (s : State) : Host.Outcome State Fault Refusal :=
  onNobank s fun _ => raise .writeError s

end Sys2Proof.Machine
end

