-- ==== Sys2Proof/Machine/Header.lean ====
section
/-! DEFINITION. The header: checksum validator and field decoders (spec/41_header.md). -/

namespace Sys2Proof.Machine

/-- The checksum region, header offsets 0x34 to 0x4C inclusive: 25 bytes (R120, conflict C10). -/
def Header.region (h : Header) : List Byte := (h.toList.drop 0x34).take 25

/-- `Cks(h)` (R122): from 0, subtract each byte of the region and 1, modulo 256. -/
def Header.cks (h : Header) : Byte := h.region.foldl (fun x b => x - b - 1#8) 0x00#8

/-- The header-checksum byte stored at 0x4D (R129). -/
def Header.headerChecksum (h : Header) : Byte := h[0x4D]

/-- `PARSE(h)` (R121, R123): the length first, then the checksum. The accepted header is the snapshot. -/
def parse (bytes : List Byte) : Except ErrorKind Header :=
  if len : bytes.length = 80 then
    let h : Header := ⟨bytes.toArray, by simp [len]⟩
    if h.cks = h.headerChecksum then .ok h else .error .checksumError
  else .error .formatError

/-- Header bytes `lo` to `lo + n - 1`, in ascending offset order. -/
def Header.slice (h : Header) (lo n : Nat) : List Byte := (h.toList.drop lo).take n

/-- The entry point, 4 raw bytes (R125). -/
def Header.entry (h : Header) : List Byte := h.slice 0x00 4

/-- The logo, 48 raw bytes, compared with nothing (R125). -/
def Header.logo (h : Header) : List Byte := h.slice 0x04 48

/-- `ALNUM` (R11): the ASCII digits and letters. PRESUMED (the spec: general knowledge, D9). Log 12. -/
def alnum (b : Byte) : Bool :=
  (0x30 ≤ b.toNat && b.toNat ≤ 0x39) || (0x41 ≤ b.toNat && b.toNat ≤ 0x5A) || (0x61 ≤ b.toNat && b.toNat ≤ 0x7A)

/-- The title: the longest prefix of the 16-byte field whose bytes are all in `ALNUM` (R126). -/
def Header.title (h : Header) : List Byte := (h.slice 0x34 16).takeWhile alnum

/-- The licence code (R127): the old byte, unless it is the sentinel 0x33. -/
def Header.licence (h : Header) : List Byte := if h[0x4B] = 0x33#8 then [h[0x44], h[0x45]] else [h[0x4B]]

/-- The global checksum, big-endian (R128, R60). -/
def Header.global (h : Header) : BitVec 16 := h[0x4E] ++ h[0x4F]

/-- The SGB flag (R129). -/
def Header.sgb (h : Header) : Byte := h[0x46]

/-- The cartridge type (R129), the selector's input (R170). -/
def Header.typeByte (h : Header) : Byte := h[0x47]

/-- The ROM size code (R129): no rule reads it (R69). -/
def Header.romSize (h : Header) : Byte := h[0x48]

/-- The RAM size code (R129): no rule reads it (R69). -/
def Header.ramSize (h : Header) : Byte := h[0x49]

/-- The destination code (R129). -/
def Header.destination (h : Header) : Byte := h[0x4A]

/-- The old licence code (R129). -/
def Header.oldLicence (h : Header) : Byte := h[0x4B]

/-- The mask ROM version (R129). -/
def Header.version (h : Header) : Byte := h[0x4C]

/-- The header whose fields a collaborator can read (R123): none is exposed before `PARSE` has accepted it. -/
def State.exposedHeader (s : State) : Option Header :=
  match s.loading with
  | some l => some l.hdr
  | none => s.cart.map (·.hdr)

/-- "A caller that tests 'is this a FormatError' may be answered yes for a ChecksumError" (R182, conflict C5). -/
def ErrorKind.isFormatError : ErrorKind → Bool
  | .formatError | .checksumError => true
  | .ioError | .addressError | .writeError | .ramDisabledError | .unsupportedCartridgeError => false

/-- The spec's own numbers for its tables (R180, D8); no rule depends on them. Log 20. -/
def ErrorKind.code : ErrorKind → Nat
  | .formatError => 1
  | .checksumError => 2
  | .ioError => 3
  | .addressError => 4
  | .writeError => 5
  | .ramDisabledError => 6
  | .unsupportedCartridgeError => 7

end Sys2Proof.Machine
end

