-- ==== Sys2Proof/Machine/Load.lean ====
section
/-! DEFINITION. LOAD (R211), the only reset event (R210): steps 1 to 6 here, and the two ways the selector ends it
(steps 7 to 9). -/

namespace Sys2Proof.Machine

/-- The bytes a source delivers (R130): the same from memory and from a stream, none where the stream is not readable
or the seek fails (R131). -/
def Source.deliver : Source → Option (List Byte)
  | .memory bytes => some bytes
  | .stream readable seekable bytes => if readable && seekable then some bytes else none

/-- The header bytes of an image, `IMAGE[HEADER_BASE .. HEADER_BASE + 79]`; fewer than 80 where the image is too short
(R130). -/
def headerSlice (bytes : List Byte) : List Byte := (bytes.drop Config.headerBase).take 80

/-- LOAD steps 1 to 6. The new cartridge has nothing of an earlier one (R210), so the slot is emptied first; if a step
raises, no cartridge exists (R211). An accepted header then awaits the selector. Logs 3 and 4. -/
def beginLoad (src : Source) (s : State) : Host.Outcome State Fault Refusal :=
  match src.deliver with
  | none => raise .ioError ((s.setCart none).setLoading none)
  | some bytes =>
    match parse (headerSlice bytes) with
    | .error k => raise k ((s.setCart none).setLoading none)
    | .ok h => .next (((s.setCart none).setLoading (some { image := Image.ofBytes bytes, hdr := h })).setReply none)

/-- LOAD steps 7 to 9 for an implemented variant: the cartridge exists, with the image and the header as delivered. -/
def build (ctrl : Controller) (s : State) : Host.Outcome State Fault Refusal :=
  onAccepted s fun l =>
    answer .ok ((s.setCart (some { image := l.image, hdr := l.hdr, ctrl := ctrl })).setLoading none)

/-- LOAD step 7 for any other type byte: no cartridge is built (R173 to R178, R187). -/
def reject (s : State) : Host.Outcome State Fault Refusal :=
  onAccepted s fun _ => raise .unsupportedCartridgeError (s.setLoading none)

end Sys2Proof.Machine
end

