-- ==== Sys2Proof/Machine/Selector.lean ====
section
/-! DEFINITION. The cartridge-type selector (spec/45_factory.md), LOAD's step 7: it runs on the type byte of an accepted
header. -/

namespace Sys2Proof.Machine

/-- CT.NOBANK, type byte 0x00 (R171). -/
def execCtNobank (s : State) : Host.Outcome State Fault Refusal := build .nobank s

/-- CT.MBC1, type byte 0x01 (R172): the registers get their reset values (R33). -/
def execCtMbc1T01 (s : State) : Host.Outcome State Fault Refusal := build (.mbc1 Mbc1Regs.afterLoad) s

/-- CT.MBC1, type byte 0x02 (R172): the registers get their reset values (R33). -/
def execCtMbc1T02 (s : State) : Host.Outcome State Fault Refusal := build (.mbc1 Mbc1Regs.afterLoad) s

/-- CT.MBC1, type byte 0x03 (R172): the registers get their reset values (R33). -/
def execCtMbc1T03 (s : State) : Host.Outcome State Fault Refusal := build (.mbc1 Mbc1Regs.afterLoad) s

/-- CT.MBC2, type byte 0x05 (R173). -/
def execCtMbc2T05 (s : State) : Host.Outcome State Fault Refusal := reject s

/-- CT.MBC2, type byte 0x06 (R173). -/
def execCtMbc2T06 (s : State) : Host.Outcome State Fault Refusal := reject s

/-- CT.MBC3, type byte 0x0F (R174). -/
def execCtMbc3T0F (s : State) : Host.Outcome State Fault Refusal := reject s

/-- CT.MBC3, type byte 0x10 (R174). -/
def execCtMbc3T10 (s : State) : Host.Outcome State Fault Refusal := reject s

/-- CT.MBC3, type byte 0x11 (R174). -/
def execCtMbc3T11 (s : State) : Host.Outcome State Fault Refusal := reject s

/-- CT.MBC3, type byte 0x12 (R174). -/
def execCtMbc3T12 (s : State) : Host.Outcome State Fault Refusal := reject s

/-- CT.MBC3, type byte 0x13 (R174). -/
def execCtMbc3T13 (s : State) : Host.Outcome State Fault Refusal := reject s

/-- CT.MBC4, type byte 0x15 (R175). -/
def execCtMbc4T15 (s : State) : Host.Outcome State Fault Refusal := reject s

/-- CT.MBC4, type byte 0x16 (R175). -/
def execCtMbc4T16 (s : State) : Host.Outcome State Fault Refusal := reject s

/-- CT.MBC4, type byte 0x17 (R175). -/
def execCtMbc4T17 (s : State) : Host.Outcome State Fault Refusal := reject s

/-- CT.MBC5, type byte 0x19 (R176). -/
def execCtMbc5T19 (s : State) : Host.Outcome State Fault Refusal := reject s

/-- CT.MBC5, type byte 0x1A (R176). -/
def execCtMbc5T1A (s : State) : Host.Outcome State Fault Refusal := reject s

/-- CT.MBC5, type byte 0x1B (R176). -/
def execCtMbc5T1B (s : State) : Host.Outcome State Fault Refusal := reject s

/-- CT.MBC5, type byte 0x1C (R176). -/
def execCtMbc5T1C (s : State) : Host.Outcome State Fault Refusal := reject s

/-- CT.MBC5, type byte 0x1D (R176). -/
def execCtMbc5T1D (s : State) : Host.Outcome State Fault Refusal := reject s

/-- CT.MBC5, type byte 0x1E (R176). -/
def execCtMbc5T1E (s : State) : Host.Outcome State Fault Refusal := reject s

/-- CT.HUC1, type byte 0xFF (R177). -/
def execCtHuc1 (s : State) : Host.Outcome State Fault Refusal := reject s

/-- CT.UNKNOWN (R178): the same error kind as the named classes. -/
def execCtUnknown (_ : Byte) (s : State) : Host.Outcome State Fault Refusal := reject s

end Sys2Proof.Machine
end

