-- ==== Sys2Proof/Machine/Dispatch.lean ====
section
/-! DEFINITION. One arm per constructor of Instr. -/

namespace Sys2Proof.Machine

def exec (i : Instr) (s : State) : Host.Outcome State Fault Refusal :=
  match i with
  | .rdRom0 a => Sys2Proof.Machine.execRdRom0 a s
  | .rdRomx a => Sys2Proof.Machine.execRdRomx a s
  | .rdUnmapped8 a => Sys2Proof.Machine.execRdUnmapped8 a s
  | .rdRam a => Sys2Proof.Machine.execRdRam a s
  | .rdUnmappedC a => Sys2Proof.Machine.execRdUnmappedC a s
  | .wrRamen a d => Sys2Proof.Machine.execWrRamen a d s
  | .wrRomb a d => Sys2Proof.Machine.execWrRomb a d s
  | .wrRamb a d => Sys2Proof.Machine.execWrRamb a d s
  | .wrMode a d => Sys2Proof.Machine.execWrMode a d s
  | .wrUnmapped8 a d => Sys2Proof.Machine.execWrUnmapped8 a d s
  | .wrRam a d => Sys2Proof.Machine.execWrRam a d s
  | .wrUnmappedC a d => Sys2Proof.Machine.execWrUnmappedC a d s
  | .nbRdRom a => Sys2Proof.Machine.execNbRdRom a s
  | .nbRdUnmapped a => Sys2Proof.Machine.execNbRdUnmapped a s
  | .nbWr a d => Sys2Proof.Machine.execNbWr a d s
  | .ctNobank => Sys2Proof.Machine.execCtNobank s
  | .ctMbc1T01 => Sys2Proof.Machine.execCtMbc1T01 s
  | .ctMbc1T02 => Sys2Proof.Machine.execCtMbc1T02 s
  | .ctMbc1T03 => Sys2Proof.Machine.execCtMbc1T03 s
  | .ctMbc2T05 => Sys2Proof.Machine.execCtMbc2T05 s
  | .ctMbc2T06 => Sys2Proof.Machine.execCtMbc2T06 s
  | .ctMbc3T0F => Sys2Proof.Machine.execCtMbc3T0F s
  | .ctMbc3T10 => Sys2Proof.Machine.execCtMbc3T10 s
  | .ctMbc3T11 => Sys2Proof.Machine.execCtMbc3T11 s
  | .ctMbc3T12 => Sys2Proof.Machine.execCtMbc3T12 s
  | .ctMbc3T13 => Sys2Proof.Machine.execCtMbc3T13 s
  | .ctMbc4T15 => Sys2Proof.Machine.execCtMbc4T15 s
  | .ctMbc4T16 => Sys2Proof.Machine.execCtMbc4T16 s
  | .ctMbc4T17 => Sys2Proof.Machine.execCtMbc4T17 s
  | .ctMbc5T19 => Sys2Proof.Machine.execCtMbc5T19 s
  | .ctMbc5T1A => Sys2Proof.Machine.execCtMbc5T1A s
  | .ctMbc5T1B => Sys2Proof.Machine.execCtMbc5T1B s
  | .ctMbc5T1C => Sys2Proof.Machine.execCtMbc5T1C s
  | .ctMbc5T1D => Sys2Proof.Machine.execCtMbc5T1D s
  | .ctMbc5T1E => Sys2Proof.Machine.execCtMbc5T1E s
  | .ctHuc1 => Sys2Proof.Machine.execCtHuc1 s
  | .ctUnknown t => Sys2Proof.Machine.execCtUnknown t s

end Sys2Proof.Machine
end

