-- ==== Sys2Proof/Decode.lean ====
section
/-! DEFINITION. The decoder (R80 to R88, R92), total on any bytes, and after it the encoder, written from the same
tables. A transaction's word has a meaning only together with the variant, which selects the table (R92). -/

namespace Sys2Proof

/-- One row of the match and mask table (R87). -/
structure Row where
  mnemonic : String
  mask : BusWord
  bits : BusWord
  deriving DecidableEq, Repr

/-- A word `T` selects a row when `(T & mask) == match` (R87). -/
def Row.selects (r : Row) (t : BusWord) : Bool := decide (t &&& r.mask = r.bits)

/-- The row's mnemonic in spec/opcode_table.json. -/
def Instr.mnemonic : Instr → String
  | .rdRom0 _ => "RD.ROM0"
  | .rdRomx _ => "RD.ROMX"
  | .rdUnmapped8 _ => "RD.UNMAPPED.8"
  | .rdRam _ => "RD.RAM"
  | .rdUnmappedC _ => "RD.UNMAPPED.C"
  | .wrRamen _ _ => "WR.RAMEN"
  | .wrRomb _ _ => "WR.ROMB"
  | .wrRamb _ _ => "WR.RAMB"
  | .wrMode _ _ => "WR.MODE"
  | .wrUnmapped8 _ _ => "WR.UNMAPPED.8"
  | .wrRam _ _ => "WR.RAM"
  | .wrUnmappedC _ _ => "WR.UNMAPPED.C"
  | .nbRdRom _ => "NB.RD.ROM"
  | .nbRdUnmapped _ => "NB.RD.UNMAPPED"
  | .nbWr _ _ => "NB.WR"
  | .ctNobank => "CT.NOBANK"
  | .ctMbc1T01 => "CT.MBC1"
  | .ctMbc1T02 => "CT.MBC1"
  | .ctMbc1T03 => "CT.MBC1"
  | .ctMbc2T05 => "CT.MBC2"
  | .ctMbc2T06 => "CT.MBC2"
  | .ctMbc3T0F => "CT.MBC3"
  | .ctMbc3T10 => "CT.MBC3"
  | .ctMbc3T11 => "CT.MBC3"
  | .ctMbc3T12 => "CT.MBC3"
  | .ctMbc3T13 => "CT.MBC3"
  | .ctMbc4T15 => "CT.MBC4"
  | .ctMbc4T16 => "CT.MBC4"
  | .ctMbc4T17 => "CT.MBC4"
  | .ctMbc5T19 => "CT.MBC5"
  | .ctMbc5T1A => "CT.MBC5"
  | .ctMbc5T1B => "CT.MBC5"
  | .ctMbc5T1C => "CT.MBC5"
  | .ctMbc5T1D => "CT.MBC5"
  | .ctMbc5T1E => "CT.MBC5"
  | .ctHuc1 => "CT.HUC1"
  | .ctUnknown _ => "CT.UNKNOWN"

/-- The BUS rows of one variant (R87), in the order of the table. -/
def busRows : Variant → List Row
  | .mbc1 =>
    [⟨"RD.ROM0", 0x1C00000#25, 0x0000000#25⟩, ⟨"RD.ROMX", 0x1C00000#25, 0x0400000#25⟩, ⟨"RD.UNMAPPED.8", 0x1E00000#25, 0x0800000#25⟩]
      ++ [⟨"RD.RAM", 0x1E00000#25, 0x0A00000#25⟩, ⟨"RD.UNMAPPED.C", 0x1C00000#25, 0x0C00000#25⟩, ⟨"WR.RAMEN", 0x1E00000#25, 0x1000000#25⟩]
      ++ [⟨"WR.ROMB", 0x1E00000#25, 0x1200000#25⟩, ⟨"WR.RAMB", 0x1E00000#25, 0x1400000#25⟩, ⟨"WR.MODE", 0x1E00000#25, 0x1600000#25⟩]
      ++ [⟨"WR.UNMAPPED.8", 0x1E00000#25, 0x1800000#25⟩, ⟨"WR.RAM", 0x1E00000#25, 0x1A00000#25⟩, ⟨"WR.UNMAPPED.C", 0x1C00000#25, 0x1C00000#25⟩]
  | .nobank =>
    [⟨"NB.RD.ROM", 0x1800000#25, 0x0000000#25⟩, ⟨"NB.RD.UNMAPPED", 0x1800000#25, 0x0800000#25⟩, ⟨"NB.WR", 0x1000000#25, 0x1000000#25⟩]

/-- `T = {W, A[15:0], D[7:0]}` (R80; the packing is the spec's decision D10, log 13). -/
def busWord (w : Bool) (a : Addr) (d : Byte) : BusWord := BitVec.ofBool w ++ a ++ d

/-- The field `W` of `T`, bit 24: false is RD, true is WR (R80). -/
def BusWord.isWrite (t : BusWord) : Bool := t.getLsbD 24

/-- The field `A` of `T`, bits 23:8 (R80). -/
def BusWord.addr (t : BusWord) : Addr := t.extractLsb' 8 16

/-- The field `D` of `T`, bits 7:0 (R80). -/
def BusWord.data (t : BusWord) : Byte := t.extractLsb' 0 8

/-- MBC1 read decode by `A[15:13]` (R84). -/
def decodeMbc1Read (a : Addr) : Instr :=
  match (a.extractLsb' 13 3).toNat with
  | 0 => .rdRom0 a
  | 1 => .rdRom0 a
  | 2 => .rdRomx a
  | 3 => .rdRomx a
  | 4 => .rdUnmapped8 a
  | 5 => .rdRam a
  | _ => .rdUnmappedC a

/-- MBC1 write decode by `A[15:13]` (R85); `A[12:0]` and `D` take no part. -/
def decodeMbc1Write (a : Addr) (d : Byte) : Instr :=
  match (a.extractLsb' 13 3).toNat with
  | 0 => .wrRamen a d
  | 1 => .wrRomb a d
  | 2 => .wrRamb a d
  | 3 => .wrMode a d
  | 4 => .wrUnmapped8 a d
  | 5 => .wrRam a d
  | _ => .wrUnmappedC a d

/-- The operation a transaction selects, by the variant (R92), the direction and the high address bits (R84 to R86). -/
def decodeBus (v : Variant) (t : BusWord) : Instr :=
  match v, BusWord.isWrite t with
  | .mbc1, false => decodeMbc1Read (BusWord.addr t)
  | .mbc1, true => decodeMbc1Write (BusWord.addr t) (BusWord.data t)
  | .nobank, false =>
    if (BusWord.addr t).getLsbD 15 then .nbRdUnmapped (BusWord.addr t) else .nbRdRom (BusWord.addr t)
  | .nobank, true => .nbWr (BusWord.addr t) (BusWord.data t)

/-- The CT row of a type byte (R88): all eight bits are matched, and what no row names is the default. -/
def decodeCt (t : Byte) : Instr :=
  match t.toNat with
  | 0x00 => .ctNobank
  | 0x01 => .ctMbc1T01
  | 0x02 => .ctMbc1T02
  | 0x03 => .ctMbc1T03
  | 0x05 => .ctMbc2T05
  | 0x06 => .ctMbc2T06
  | 0x0F => .ctMbc3T0F
  | 0x10 => .ctMbc3T10
  | 0x11 => .ctMbc3T11
  | 0x12 => .ctMbc3T12
  | 0x13 => .ctMbc3T13
  | 0x15 => .ctMbc4T15
  | 0x16 => .ctMbc4T16
  | 0x17 => .ctMbc4T17
  | 0x19 => .ctMbc5T19
  | 0x1A => .ctMbc5T1A
  | 0x1B => .ctMbc5T1B
  | 0x1C => .ctMbc5T1C
  | 0x1D => .ctMbc5T1D
  | 0x1E => .ctMbc5T1E
  | 0xFF => .ctHuc1
  | _ => .ctUnknown t

/-- A word of either format (R80, R81). -/
inductive Code where
  | bus (t : BusWord)
  | ct (t : Byte)
  deriving DecidableEq, Repr

/-- The decoder on words: total, since the rows of a variant cover all 2^25 words (R87) and CT has a default (R88). -/
def decode (v : Variant) : Code → Instr
  | .bus t => decodeBus v t
  | .ct t => decodeCt t

/-- Why bytes are no word of this hardware. -/
inductive DecodeError where
  /-- Neither one byte (a type byte) nor four (a transaction). -/
  | badLength
  /-- Four bytes with a bit above bit 24 set: `T` has 25 bits (R80). -/
  | reservedBits
  deriving DecidableEq, Repr

/-- The decoder on bytes, first byte least significant: one byte is a type byte, four are a transaction's 25 bits with
seven zero bits above. The byte layout is a DESIGN CHOICE (the spec packs bits, not bytes). Log 13. -/
def decodeBytes (v : Variant) : List Byte → Except DecodeError Instr
  | [b] => .ok (decode v (.ct b))
  | [b0, b1, b2, b3] =>
    if b3 &&& 0xFE#8 = 0#8 then .ok (decode v (.bus ((b3 ++ b2 ++ b1 ++ b0).setWidth 25))) else .error .reservedBits
  | _ => .error .badLength

/-- `n` bytes of the number `w`, least significant first. -/
def layoutBytes : Nat → Nat → List Byte
  | 0, _ => []
  | n + 1, w => BitVec.ofNat 8 w :: layoutBytes n (w / 256)

/-- The instruction the decoder reads from a table word of `nbits` bits. A BUS word does not say which variant's table
it is of: it is read by the MBC1 table, the one of the cartridge in `State.reset`. Log 14. -/
def decodeTableWord (nbits w : Nat) : Option Instr :=
  match decodeBytes .mbc1 (layoutBytes ((nbits + 7) / 8) w) with
  | .ok i => some i
  | .error _ => none

/-- The word of an instruction, written from the fields of R80 and R81; the ignored `D` of a read is 0x00 (R80). -/
def encode : Instr → Code
  | .rdRom0 a => .bus (busWord false a 0x00#8)
  | .rdRomx a => .bus (busWord false a 0x00#8)
  | .rdUnmapped8 a => .bus (busWord false a 0x00#8)
  | .rdRam a => .bus (busWord false a 0x00#8)
  | .rdUnmappedC a => .bus (busWord false a 0x00#8)
  | .wrRamen a d => .bus (busWord true a d)
  | .wrRomb a d => .bus (busWord true a d)
  | .wrRamb a d => .bus (busWord true a d)
  | .wrMode a d => .bus (busWord true a d)
  | .wrUnmapped8 a d => .bus (busWord true a d)
  | .wrRam a d => .bus (busWord true a d)
  | .wrUnmappedC a d => .bus (busWord true a d)
  | .nbRdRom a => .bus (busWord false a 0x00#8)
  | .nbRdUnmapped a => .bus (busWord false a 0x00#8)
  | .nbWr a d => .bus (busWord true a d)
  | .ctNobank => .ct 0x00#8
  | .ctMbc1T01 => .ct 0x01#8
  | .ctMbc1T02 => .ct 0x02#8
  | .ctMbc1T03 => .ct 0x03#8
  | .ctMbc2T05 => .ct 0x05#8
  | .ctMbc2T06 => .ct 0x06#8
  | .ctMbc3T0F => .ct 0x0F#8
  | .ctMbc3T10 => .ct 0x10#8
  | .ctMbc3T11 => .ct 0x11#8
  | .ctMbc3T12 => .ct 0x12#8
  | .ctMbc3T13 => .ct 0x13#8
  | .ctMbc4T15 => .ct 0x15#8
  | .ctMbc4T16 => .ct 0x16#8
  | .ctMbc4T17 => .ct 0x17#8
  | .ctMbc5T19 => .ct 0x19#8
  | .ctMbc5T1A => .ct 0x1A#8
  | .ctMbc5T1B => .ct 0x1B#8
  | .ctMbc5T1C => .ct 0x1C#8
  | .ctMbc5T1D => .ct 0x1D#8
  | .ctMbc5T1E => .ct 0x1E#8
  | .ctHuc1 => .ct 0xFF#8
  | .ctUnknown t => .ct t

/-- The bytes of an instruction's word, laid out as `decodeBytes` reads them. -/
def encodeBytes (i : Instr) : List Byte :=
  match encode i with
  | .bus t => layoutBytes 4 t.toNat
  | .ct t => [t]

end Sys2Proof
end

