-- ==== Sys2Proof/Machine/Fetch.lean ====
section
/-! DEFINITION. What the machine serves next. There is no program counter (R30): an accepted header's type byte goes to
the selector before anything else (LOAD is atomic for the bus master, R211), else the oldest request is served, and a
transaction is decoded by the table of the cartridge's variant (R92). -/

namespace Sys2Proof.Machine

/-- What there is to do, with the state it is done in. -/
inductive Fetched where
  /-- No request: the block takes no step of its own (R7, log 23). -/
  | idle
  /-- An operation, and the state with its request taken from the queue. -/
  | operation (i : Instr) (s : State)
  /-- A LOAD, and the state with its request taken from the queue. -/
  | load (src : Source) (s : State)
  /-- A transaction where no cartridge exists. -/
  | noResponder
  deriving DecidableEq, Repr

/-- Take what is served next. -/
def fetch (s : State) : Fetched :=
  match s.loading, s.queue with
  | some l, _ => .operation (decode .mbc1 (.ct l.hdr.typeByte)) s
  | none, [] => .idle
  | none, .load src :: rest => .load src (s.setQueue rest)
  | none, .bus t :: rest =>
    match s.cart with
    | none => .noResponder
    | some c => .operation (decode c.variant (.bus t)) (s.setQueue rest)

/-- The boot image with another type byte, and the checksum that goes with it: an accepted header that awaits the
selector. It serves `State.withFetchWord` only. Log 15. -/
def Loading.withType (t : Byte) : Loading :=
  let h : Header := Header.boot.set 0x47 t
  let x : Byte := h.cks
  { image := (Image.boot.write (Config.headerBase + 0x47) t).write (Config.headerBase + 0x4D) x, hdr := h.set 0x4D x }

end Sys2Proof.Machine
end

