-- ==== Sys2Proof/Machine/Step.lean ====
section
/-! DEFINITION. One step: the service of one request, or the selector's turn in a LOAD. -/

namespace Sys2Proof.Machine

/-- Serve what is fetched. -/
def step (s : State) : Host.Outcome State Fault Refusal :=
  match fetch s with
  | .idle => .next s
  | .operation i s' => exec i s'
  | .load src s' => beginLoad src s'
  | .noResponder => .fault .noCartridge

/-- `s` with the table word `w` placed where `step` takes its next instruction: a type byte in an accepted header, a
transaction at the head of the queue with no LOAD under way, for the cartridge there is, or the boot cartridge. Logs 14
and 15. -/
def State.withFetchWord (s : State) (nbits w : Nat) : State :=
  if nbits ≤ 8 then { s with cart := none, loading := some (Loading.withType (BitVec.ofNat 8 w)) }
  else
    { s with cart := some (s.cart.getD Cartridge.boot), loading := none, queue := .bus (BitVec.ofNat 25 w) :: s.queue }

end Sys2Proof.Machine
end

