-- ==== Sys2Proof/WellFormed.lean ====
section
/-! DEFINITION. When an instruction is one the encoding can hold: the address lies in its row's window (R51, R52, R84 to
R86), and CT.UNKNOWN carries a type byte that no other row names (R88, R178). -/

namespace Sys2Proof

/-- The 21 type bytes that have a row of their own (R88). -/
def namedTypes : List Byte :=
  [0x00#8, 0x01#8, 0x02#8, 0x03#8] ++ [0x05#8, 0x06#8] ++ [0x0F#8, 0x10#8, 0x11#8, 0x12#8, 0x13#8]
    ++ [0x15#8, 0x16#8, 0x17#8] ++ [0x19#8, 0x1A#8, 0x1B#8, 0x1C#8, 0x1D#8, 0x1E#8] ++ [0xFF#8]

open AddressValue in
/-- The check, one line per row of the windows' tables (R51, R52) and of R88. -/
def Instr.wf : Instr → Bool
  | .rdRom0 a => inRange a 0x0000 0x3FFF
  | .rdRomx a => inRange a 0x4000 0x7FFF
  | .rdUnmapped8 a => inRange a 0x8000 0x9FFF
  | .rdRam a => inRange a 0xA000 0xBFFF
  | .rdUnmappedC a => inRange a 0xC000 0xFFFF
  | .wrRamen a _ => inRange a 0x0000 0x1FFF
  | .wrRomb a _ => inRange a 0x2000 0x3FFF
  | .wrRamb a _ => inRange a 0x4000 0x5FFF
  | .wrMode a _ => inRange a 0x6000 0x7FFF
  | .wrUnmapped8 a _ => inRange a 0x8000 0x9FFF
  | .wrRam a _ => inRange a 0xA000 0xBFFF
  | .wrUnmappedC a _ => inRange a 0xC000 0xFFFF
  | .nbRdRom a => inRange a 0x0000 0x7FFF
  | .nbRdUnmapped a => inRange a 0x8000 0xFFFF
  | .nbWr _ _ => true
  | .ctNobank | .ctMbc1T01 | .ctMbc1T02 | .ctMbc1T03 => true
  | .ctMbc2T05 | .ctMbc2T06 => true
  | .ctMbc3T0F | .ctMbc3T10 | .ctMbc3T11 | .ctMbc3T12 | .ctMbc3T13 => true
  | .ctMbc4T15 | .ctMbc4T16 | .ctMbc4T17 => true
  | .ctMbc5T19 | .ctMbc5T1A | .ctMbc5T1B | .ctMbc5T1C | .ctMbc5T1D | .ctMbc5T1E => true
  | .ctHuc1 => true
  | .ctUnknown t => !namedTypes.contains t

end Sys2Proof
end

