-- ==== Sys2Proof/Safety.lean ====
section
/-! DEFINITION. The terms claims use: which states are legal, what a state holds, what an operation was asked for. -/

namespace Sys2Proof.Machine

/-- The cartridge in the slot is an MBC1 cartridge `c` with registers `r`. -/
abbrev State.HasMbc1 (s : State) (c : Cartridge) (r : Mbc1Regs) : Prop := s.cart = some c ∧ c.ctrl = .mbc1 r

/-- The cartridge in the slot is a NOBANK cartridge `c`. -/
abbrev State.HasNobank (s : State) (c : Cartridge) : Prop := s.cart = some c ∧ c.ctrl = .nobank

/-- The variant that the selector's table gives a type byte (R88, R170); none for the unimplemented and the unknown. -/
def variantOfType (t : Byte) : Option Variant :=
  if t = 0x00#8 then some .nobank else if t = 0x01#8 ∨ t = 0x02#8 ∨ t = 0x03#8 then some .mbc1 else none

/-- A header that `PARSE` accepts (R123). -/
abbrev Header.Valid (h : Header) : Prop := h.cks = h.headerChecksum

/-- A controller's registers are ones a run can leave: `ROMB` is not 0x00 (R25). -/
def Controller.legal : Controller → Bool
  | .nobank => true
  | .mbc1 r => decide (r.romb ≠ 0x00#8)

/-- A cartridge that LOAD can have built and transactions can have left: canonical image, long enough for a header
(R211 step 3), a header that was accepted (R123), the variant its type byte gives (R21), and legal registers (R25). -/
structure Cartridge.Inv (c : Cartridge) : Prop where
  image : c.image.wf = true
  room : Config.headerBase + 80 ≤ c.image.capacity
  header : c.hdr.Valid
  variant : variantOfType c.hdr.typeByte = some c.variant
  regs : c.ctrl.legal = true

/-- What awaits the selector: a canonical image, long enough, and an accepted header. -/
structure Loading.Inv (l : Loading) : Prop where
  image : l.image.wf = true
  room : Config.headerBase + 80 ≤ l.image.capacity
  header : l.hdr.Valid

/-- The invariant: the cartridge and the load under way are legal, and there are never both. That a load can be under way
between two steps is the model's choice (log 3), that the old cartridge is gone at once its reading of R211 (log 4). -/
structure State.Inv (s : State) : Prop where
  cart : ∀ c, s.cart = some c → c.Inv
  loading : ∀ l, s.loading = some l → l.Inv
  exclusive : ∀ l, s.loading = some l → s.cart = none

/-- The next request is the transaction `t`, and no LOAD is under way: `t` is what `step` serves. -/
abbrev State.NextIs (s : State) (t : BusWord) (rest : List Request) : Prop :=
  s.loading = none ∧ s.queue = .bus t :: rest

/-- `n` requests served one after the other, in issue order (R64), stopping at the first stop. -/
def run : Nat → State → Host.Outcome State Fault Refusal
  | 0, s => .next s
  | n + 1, s =>
    match step s with
    | .next t => run n t
    | .fault r => .fault r
    | .refused r => .refused r

/-- The bits of the registers that any rule reads (R28): the low nibble of `RAMEN`, the low five bits of `ROMB`, the low
two of `RAMB`, and whether `MODE` is zero. -/
def Mbc1Regs.visible (r : Mbc1Regs) : Byte × Byte × Byte × Bool :=
  (r.ramen &&& 0x0F#8, r.romb &&& 0x1F#8, r.ramb &&& 0x03#8, decide (r.mode = 0x00#8))

end Sys2Proof.Machine
end

