-- ==== Sys2Proof/Certificates/Slice0/Obligations.lean ====
section
/-! DEFINITION. The statements for the provers. Each names the rule of spec/ it formalises. Where a clause rests on a
decision the spec marks as its own (D1 to D14) or on a choice of this model, the docstring names it and the log entry.
A bus operation's frame is said by an equation for its whole next state: everything not named there is unchanged. -/

open Sys2Proof Sys2Proof.Machine

/-! ## Serving a request -/

/-- A step is the operation the decoder reads: an accepted header's type byte goes to the selector (R81, R170), and a
transaction at the head of the queue runs, with its request taken off the queue, the operation that the table of the
cartridge's variant gives (R83, R92). The queue and the selector's turn are the model's interface (logs 1 and 3). -/
def Obligations.StepRunsTheSelectedOperation : Prop :=
  (∀ s l, s.loading = some l → step s = exec (decodeCt l.hdr.typeByte) s) ∧
  (∀ s c t rest, s.NextIs t rest → s.cart = some c → step s = exec (decodeBus c.variant t) (s.setQueue rest))

/-- The other steps: nothing requested, nothing happens (R7: the block takes no step of its own); a LOAD begins; and a
transaction with no cartridge stops the machine, since none can be issued then (R211). The model's choices: that a LOAD
begins in a step of its own, R211's steps 1 to 6 (log 3), the idle step (log 23) and the fault (log 16). -/
def Obligations.StepWithoutAnOperation : Prop :=
  (∀ s, s.loading = none → s.queue = [] → step s = .next s) ∧
  (∀ s src rest, s.loading = none → s.queue = .load src :: rest → step s = beginLoad src (s.setQueue rest)) ∧
  (∀ s t rest, s.NextIs t rest → s.cart = none → step s = .fault .noCartridge)

/-- Every step answers a next state but one: a transaction where no cartridge exists. In particular, after LOAD every
transaction has a defined result (R213), and no refusal is ever reached. What a step is, is the model's choice (logs 1
and 3), and so is the fault (log 16). -/
def Obligations.StepStopsOnlyWithoutACartridge : Prop :=
  ∀ s, (∃ t, step s = .next t ∧
      (∀ w rest c, s.NextIs w rest → s.cart = some c → ∃ k, t.reply = some k)) ∨
    (s.cart = none ∧ (∃ w rest, s.NextIs w rest) ∧ step s = .fault .noCartridge)

/-! ## Decoding -/

/-- Words written out from the vectors V19 to V21 and the programs P1 and P2, by the MBC1 and the NOBANK table, and a type
byte. That `decodeTableWord` reads a transaction by the MBC1 table is the model's choice (log 14): 0x1200005 is `NB.WR` by
the NOBANK table (V21). The packing is the spec's decision D10 (log 13). -/
def Obligations.TableWordsDecode : Prop :=
  decodeBus .mbc1 0x0400000#25 = .rdRomx 0x4000#16 ∧ decodeBus .mbc1 0x1200005#25 = .wrRomb 0x2000#16 0x05#8 ∧
  decodeBus .mbc1 0x07FFF00#25 = .rdRomx 0x7FFF#16 ∧ decodeBus .mbc1 0x1A01077#25 = .wrRam 0xA010#16 0x77#8 ∧
  decodeBus .mbc1 0x19FFF00#25 = .wrUnmapped8 0x9FFF#16 0x00#8 ∧ decodeBus .mbc1 0x0C00000#25 = .rdUnmappedC 0xC000#16 ∧
  decodeBus .nobank 0x0015000#25 = .nbRdRom 0x0150#16 ∧ decodeBus .nobank 0x0A00000#25 = .nbRdUnmapped 0xA000#16 ∧
  decodeBus .nobank 0x1A00001#25 = .nbWr 0xA000#16 0x01#8 ∧ decodeCt 0x03#8 = .ctMbc1T03 ∧
  decodeTableWord 32 0x1200005 = some (.wrRomb 0x2000#16 0x05#8) ∧ decodeTableWord 8 0x1B = some .ctMbc5T1B

/-- The windows select the operation: on MBC1 the source's closed ranges, tested in the order listed, first match wins
(R84, R85); on NOBANK the test against 0x7FFF, and every write alike (R86, whose errors `NobankRefusesTheRest` states).
The rows that the tables add for "any other address" are the two unmapped windows. (How a transaction is packed into `T`
is D10, log 13; nothing here depends on it.) -/
def Obligations.WindowsSelectTheOperation : Prop :=
  (∀ a d, decodeBus .mbc1 (busWord false a d) =
    if AddressValue.inRange a 0x0000 0x3FFF then .rdRom0 a
    else if AddressValue.inRange a 0x4000 0x7FFF then .rdRomx a
    else if AddressValue.inRange a 0xA000 0xBFFF then .rdRam a
    else if AddressValue.inRange a 0x8000 0x9FFF then .rdUnmapped8 a else .rdUnmappedC a) ∧
  (∀ a d, decodeBus .mbc1 (busWord true a d) =
    if AddressValue.inRange a 0x0000 0x1FFF then .wrRamen a d
    else if AddressValue.inRange a 0x2000 0x3FFF then .wrRomb a d
    else if AddressValue.inRange a 0x4000 0x5FFF then .wrRamb a d
    else if AddressValue.inRange a 0x6000 0x7FFF then .wrMode a d
    else if AddressValue.inRange a 0xA000 0xBFFF then .wrRam a d
    else if AddressValue.inRange a 0x8000 0x9FFF then .wrUnmapped8 a d else .wrUnmappedC a d) ∧
  (∀ a d, decodeBus .nobank (busWord false a d) = if 0x7FFF < a.toNat then .nbRdUnmapped a else .nbRdRom a) ∧
  (∀ a d, decodeBus .nobank (busWord true a d) = .nbWr a d)

/-- The type byte's table (R88, R170): the 21 bytes that have a row, and the default for the other 235. -/
def Obligations.TypeByteTable : Prop :=
  (decodeCt 0x00#8 = .ctNobank ∧ decodeCt 0x01#8 = .ctMbc1T01 ∧ decodeCt 0x02#8 = .ctMbc1T02 ∧
    decodeCt 0x03#8 = .ctMbc1T03) ∧
  (decodeCt 0x05#8 = .ctMbc2T05 ∧ decodeCt 0x06#8 = .ctMbc2T06) ∧
  (decodeCt 0x0F#8 = .ctMbc3T0F ∧ decodeCt 0x10#8 = .ctMbc3T10 ∧ decodeCt 0x11#8 = .ctMbc3T11 ∧
    decodeCt 0x12#8 = .ctMbc3T12 ∧ decodeCt 0x13#8 = .ctMbc3T13) ∧
  (decodeCt 0x15#8 = .ctMbc4T15 ∧ decodeCt 0x16#8 = .ctMbc4T16 ∧ decodeCt 0x17#8 = .ctMbc4T17) ∧
  (decodeCt 0x19#8 = .ctMbc5T19 ∧ decodeCt 0x1A#8 = .ctMbc5T1A ∧ decodeCt 0x1B#8 = .ctMbc5T1B ∧
    decodeCt 0x1C#8 = .ctMbc5T1C ∧ decodeCt 0x1D#8 = .ctMbc5T1D ∧ decodeCt 0x1E#8 = .ctMbc5T1E) ∧
  decodeCt 0xFF#8 = .ctHuc1 ∧
  ∀ t, namedTypes.contains t = false → decodeCt t = .ctUnknown t

/-- A word selects a row when `(T & mask) == match`, and the decoder gives that row's operation. Within one variant
every word selects one row and only one (R87; disjointness and cover are the spec's inference, the packing D10). -/
def Obligations.EveryWordSelectsOneRow : Prop :=
  ∀ v t, (∀ row ∈ busRows v, (row.selects t = true ↔ (decodeBus v t).mnemonic = row.mnemonic)) ∧
    ∃ row ∈ busRows v, row.selects t = true ∧ ∀ row' ∈ busRows v, row'.selects t = true → row' = row

/-- Decoding an encoded well-formed instruction gives it back, for every instruction and every operand, by the table of
its own variant (a type byte by any). -/
def Obligations.DecodeOfEncodeIsTheInstruction : Prop :=
  ∀ i v, i.wf = true → (i.variant? = none ∨ i.variant? = some v) → decode v (encode i) = i

/-- The same through the byte layout (D10; log 13). -/
def Obligations.DecodeOfEncodedBytesIsTheInstruction : Prop :=
  ∀ i v, i.wf = true → (i.variant? = none ∨ i.variant? = some v) → decodeBytes v (encodeBytes i) = .ok i

/-- The other way: what a word decodes to is well-formed, of the variant asked, and encodes to the word, but for the
data byte of a read, which is ignored (R80) and encoded as 0x00; and each type byte is the encoding of its operation. -/
def Obligations.EncodeOfDecodeIsTheWord : Prop :=
  (∀ v t, (decodeBus v t).wf = true ∧ (decodeBus v t).variant? = some v ∧
    encode (decodeBus v t) =
      .bus (if BusWord.isWrite t then t else busWord false (BusWord.addr t) 0x00#8)) ∧
  (∀ t, (decodeCt t).wf = true ∧ encode (decodeCt t) = .ct t)

/-! ## MBC1 reads -/

/-- RD.ROM0 (R150): `A` in 0x0000 to 0x3FFF is decoded to it, and it returns `image[A]`, or `AddressError` at or above
`CAPACITY`; nothing but the reply changes. -/
def Obligations.ReadOfTheFixedWindow : Prop :=
  ∀ s c r a, s.HasMbc1 c r → a.toNat ≤ 0x3FFF →
    (∀ d, decodeBus .mbc1 (busWord false a d) = .rdRom0 a) ∧
    (c.image.capacity ≤ a.toNat → exec (.rdRom0 a) s = .next (s.setReply (some (.err .addressError)))) ∧
    (a.toNat < c.image.capacity → exec (.rdRom0 a) s = .next (s.setReply (some (.data (c.image.read a.toNat)))))

/-- RD.ROMX (R151 with `RomIdx` of R55). The mode-0 index is conflict C1 resolved, its mask and shift are the spec's
decisions D3 and D4, the error of an offset beyond the image D1 (logs 7, 8, 9). -/
def Obligations.ReadOfTheSwitchableWindow : Prop :=
  ∀ s c r a idx, s.HasMbc1 c r → 0x4000 ≤ a.toNat → a.toNat ≤ 0x7FFF →
    idx = (if r.mode = 0x00#8 then ((r.ramb &&& 0x03#8).toNat <<< 5) ||| (r.romb &&& 0x1F#8).toNat
      else (r.romb &&& 0x1F#8).toNat) →
    (∀ d, decodeBus .mbc1 (busWord false a d) = .rdRomx a) ∧
    (c.image.capacity ≤ a.toNat → exec (.rdRomx a) s = .next (s.setReply (some (.err .addressError)))) ∧
    (a.toNat < c.image.capacity → c.image.capacity ≤ idx * 0x4000 + (a.toNat - 0x4000) →
      exec (.rdRomx a) s = .next (s.setReply (some (.err .addressError)))) ∧
    (a.toNat < c.image.capacity → idx * 0x4000 + (a.toNat - 0x4000) < c.image.capacity →
      exec (.rdRomx a) s =
        .next (s.setReply (some (.data (c.image.read (idx * 0x4000 + (a.toNat - 0x4000)))))))

/-- RD.RAM (R152 with `RamOff` of R57 and the gate of R56), the checks in the order of R190. The mask of `RAMB` is the
spec's decision D3 (log 7). -/
def Obligations.ReadOfTheRamWindow : Prop :=
  ∀ s c r a off, s.HasMbc1 c r → 0xA000 ≤ a.toNat → a.toNat ≤ 0xBFFF →
    off = (if r.mode = 0x00#8 then a.toNat else (r.ramb &&& 0x03#8).toNat * 0x2000 + (a.toNat - 0xA000)) →
    (∀ d, decodeBus .mbc1 (busWord false a d) = .rdRam a) ∧
    (c.image.capacity ≤ a.toNat → exec (.rdRam a) s = .next (s.setReply (some (.err .addressError)))) ∧
    (a.toNat < c.image.capacity → r.ramen &&& 0x0F#8 ≠ 0x0A#8 →
      exec (.rdRam a) s = .next (s.setReply (some (.err .ramDisabledError)))) ∧
    (a.toNat < c.image.capacity → r.ramen &&& 0x0F#8 = 0x0A#8 →
      exec (.rdRam a) s = .next (s.setReply (some (.data (c.image.read off)))))

/-! ## MBC1 writes -/

/-- WR.RAMEN (R160): the byte verbatim into `RAMEN`, no other register, no image byte; nothing at or above `CAPACITY`. -/
def Obligations.WriteOfTheRamEnableRegister : Prop :=
  ∀ s c r a d, s.HasMbc1 c r → a.toNat ≤ 0x1FFF →
    decodeBus .mbc1 (busWord true a d) = .wrRamen a d ∧
    (c.image.capacity ≤ a.toNat → exec (.wrRamen a d) s = .next (s.setReply (some (.err .addressError)))) ∧
    (a.toNat < c.image.capacity → exec (.wrRamen a d) s =
      .next ((s.setCart (some { c with ctrl := .mbc1 { r with ramen := d } })).setReply (some .ok)))

/-- WR.ROMB (R161): the byte into `ROMB`, but 0x01 for the byte 0x00, so that writing 0x00 and 0x01 are the same. -/
def Obligations.WriteOfTheRomBankRegister : Prop :=
  ∀ s c r a d, s.HasMbc1 c r → 0x2000 ≤ a.toNat → a.toNat ≤ 0x3FFF →
    decodeBus .mbc1 (busWord true a d) = .wrRomb a d ∧
    (c.image.capacity ≤ a.toNat → exec (.wrRomb a d) s = .next (s.setReply (some (.err .addressError)))) ∧
    (a.toNat < c.image.capacity → exec (.wrRomb a d) s =
      .next ((s.setCart (some { c with ctrl := .mbc1 { r with romb := if d = 0x00#8 then 0x01#8 else d } })).setReply
        (some .ok))) ∧
    exec (.wrRomb a 0x00#8) s = exec (.wrRomb a 0x01#8) s

/-- WR.RAMB (R162): the byte verbatim into `RAMB` and nothing else. -/
def Obligations.WriteOfTheRamBankRegister : Prop :=
  ∀ s c r a d, s.HasMbc1 c r → 0x4000 ≤ a.toNat → a.toNat ≤ 0x5FFF →
    decodeBus .mbc1 (busWord true a d) = .wrRamb a d ∧
    (c.image.capacity ≤ a.toNat → exec (.wrRamb a d) s = .next (s.setReply (some (.err .addressError)))) ∧
    (a.toNat < c.image.capacity → exec (.wrRamb a d) s =
      .next ((s.setCart (some { c with ctrl := .mbc1 { r with ramb := d } })).setReply (some .ok)))

/-- WR.MODE (R163): the byte verbatim into `MODE` and nothing else. -/
def Obligations.WriteOfTheModeRegister : Prop :=
  ∀ s c r a d, s.HasMbc1 c r → 0x6000 ≤ a.toNat → a.toNat ≤ 0x7FFF →
    decodeBus .mbc1 (busWord true a d) = .wrMode a d ∧
    (c.image.capacity ≤ a.toNat → exec (.wrMode a d) s = .next (s.setReply (some (.err .addressError)))) ∧
    (a.toNat < c.image.capacity → exec (.wrMode a d) s =
      .next ((s.setCart (some { c with ctrl := .mbc1 { r with mode := d } })).setReply (some .ok)))

/-- WR.RAM (R164): the errors in order, each leaving everything but the reply; else the byte at `RamOff` becomes `D`,
and every other byte, the capacity, the header, the registers and the interface are as they were. The mask of `RAMB` is
D3 (log 7). The image is canonical (`StepKeepsTheInvariant`). -/
def Obligations.WriteOfTheRamWindow : Prop :=
  ∀ s c r a d off, s.HasMbc1 c r → c.image.wf = true → 0xA000 ≤ a.toNat → a.toNat ≤ 0xBFFF →
    off = (if r.mode = 0x00#8 then a.toNat else (r.ramb &&& 0x03#8).toNat * 0x2000 + (a.toNat - 0xA000)) →
    decodeBus .mbc1 (busWord true a d) = .wrRam a d ∧
    (c.image.capacity ≤ a.toNat → exec (.wrRam a d) s = .next (s.setReply (some (.err .addressError)))) ∧
    (a.toNat < c.image.capacity → r.ramen &&& 0x0F#8 ≠ 0x0A#8 →
      exec (.wrRam a d) s = .next (s.setReply (some (.err .ramDisabledError)))) ∧
    (a.toNat < c.image.capacity → r.ramen &&& 0x0F#8 = 0x0A#8 →
      ∃ img, exec (.wrRam a d) s = .next ((s.setCart (some { c with image := img })).setReply (some .ok)) ∧
        img.capacity = c.image.capacity ∧ img.read off = d ∧ ∀ o, o ≠ off → img.read o = c.image.read o)

/-- The unmapped windows (R153, R154, R165, R166): `AddressError` for a read and for a write, nothing else changes. -/
def Obligations.UnmappedWindowsAnswerAddressError : Prop :=
  ∀ s c r a, s.HasMbc1 c r →
    (0x8000 ≤ a.toNat → a.toNat ≤ 0x9FFF → ∀ d,
      decodeBus .mbc1 (busWord false a d) = .rdUnmapped8 a ∧ decodeBus .mbc1 (busWord true a d) = .wrUnmapped8 a d ∧
      exec (.rdUnmapped8 a) s = .next (s.setReply (some (.err .addressError))) ∧
      exec (.wrUnmapped8 a d) s = .next (s.setReply (some (.err .addressError)))) ∧
    (0xC000 ≤ a.toNat → ∀ d,
      decodeBus .mbc1 (busWord false a d) = .rdUnmappedC a ∧ decodeBus .mbc1 (busWord true a d) = .wrUnmappedC a d ∧
      exec (.rdUnmappedC a) s = .next (s.setReply (some (.err .addressError))) ∧
      exec (.wrUnmappedC a d) s = .next (s.setReply (some (.err .addressError))))

/-! ## NOBANK -/

/-- NB.RD.ROM (R142), and beyond a short image `AddressError` (R145, the spec's decision D7, log 11). -/
def Obligations.NobankReadOfTheRom : Prop :=
  ∀ s c a, s.HasNobank c → a.toNat ≤ 0x7FFF →
    (∀ d, decodeBus .nobank (busWord false a d) = .nbRdRom a) ∧
    (a.toNat < c.image.capacity → exec (.nbRdRom a) s = .next (s.setReply (some (.data (c.image.read a.toNat))))) ∧
    (c.image.capacity ≤ a.toNat → exec (.nbRdRom a) s = .next (s.setReply (some (.err .addressError))))

/-- NB.RD.UNMAPPED (R143), whatever `CAPACITY` is, and NB.WR (R144), with no address check. -/
def Obligations.NobankRefusesTheRest : Prop :=
  ∀ s c a, s.HasNobank c →
    (0x8000 ≤ a.toNat → (∀ d, decodeBus .nobank (busWord false a d) = .nbRdUnmapped a) ∧
      exec (.nbRdUnmapped a) s = .next (s.setReply (some (.err .addressError)))) ∧
    (∀ d, decodeBus .nobank (busWord true a d) = .nbWr a d ∧
      exec (.nbWr a d) s = .next (s.setReply (some (.err .writeError))))

/-! ## The selector -/

/-- CT.NOBANK (R171): the type byte 0x00 fixes the variant NOBANK, and the cartridge has no registers. Its image and its
header are those that LOAD delivered and accepted (R211 steps 6 and 8); that the selector takes a step of its own, at
whose end nothing is under way, is the model's choice (log 3). -/
def Obligations.SelectorBuildsNobank : Prop :=
  decodeCt 0x00#8 = .ctNobank ∧
  ∀ s l, s.loading = some l → exec .ctNobank s =
    .next (((s.setCart (some ⟨l.image, l.hdr, .nobank⟩)).setLoading none).setReply (some .ok))

/-- CT.MBC1 (R172): the three type bytes give the same controller, with the reset values of R33. `ROMB` = 0x01 is the
source's; the other three are the spec's decision D2 (log 6). The image and the header are those of R211 steps 6 and 8,
in the selector's own step (log 3). -/
def Obligations.SelectorBuildsMbc1 : Prop :=
  (decodeCt 0x01#8 = .ctMbc1T01 ∧ decodeCt 0x02#8 = .ctMbc1T02 ∧ decodeCt 0x03#8 = .ctMbc1T03) ∧
  ∀ s l i, s.loading = some l → i ∈ [Instr.ctMbc1T01, .ctMbc1T02, .ctMbc1T03] → exec i s =
    .next (((s.setCart (some ⟨l.image, l.hdr, .mbc1 ⟨0x00#8, 0x01#8, 0x00#8, 0x00#8⟩⟩)).setLoading none).setReply
      (some .ok))

/-- CT.MBC2 to CT.UNKNOWN (R173 to R178): `UnsupportedCartridgeError`; no cartridge is built. These are all the type
bytes but 0x00 to 0x03. That an accepted header stands in the state, and is dropped in the selector's own step, is the
model's choice (log 3). -/
def Obligations.SelectorRejectsTheRest : Prop :=
  (∀ t, 0x03 < t.toNat → decodeCt t ∈ [Instr.ctMbc2T05, .ctMbc2T06, .ctMbc3T0F, .ctMbc3T10, .ctMbc3T11, .ctMbc3T12,
      .ctMbc3T13, .ctMbc4T15, .ctMbc4T16, .ctMbc4T17, .ctMbc5T19, .ctMbc5T1A, .ctMbc5T1B, .ctMbc5T1C, .ctMbc5T1D,
      .ctMbc5T1E, .ctHuc1, .ctUnknown t]) ∧
  ∀ s l i, s.loading = some l →
    (i ∈ [Instr.ctMbc2T05, .ctMbc2T06, .ctMbc3T0F, .ctMbc3T10, .ctMbc3T11, .ctMbc3T12, .ctMbc3T13, .ctMbc4T15,
      .ctMbc4T16, .ctMbc4T17, .ctMbc5T19, .ctMbc5T1A, .ctMbc5T1B, .ctMbc5T1C, .ctMbc5T1D, .ctMbc5T1E, .ctHuc1] ∨
      ∃ t, i = .ctUnknown t) →
    exec i s = .next ((s.setLoading none).setReply (some (.err .unsupportedCartridgeError)))

/-! ## Frames and whole-machine rules -/

/-- A read changes the reply and nothing else: no register, no image byte, no header byte, nothing of the interface
(R140), and its reply is a byte or an error kind. -/
def Obligations.ReadsChangeNothing : Prop :=
  ∀ i s t, i.direction? = some .read → exec i s = .next t →
    ∃ k, t = s.setReply (some k) ∧ ((∃ b, k = .data b) ∨ ∃ e, k = .err e)

/-- The register state changes only by R160 to R163, each of which sets one register, to a value given by its data byte
alone (R167), and then no image byte and no header byte changes. -/
def Obligations.RegistersChangeByTheirOwnWrites : Prop :=
  ∀ i s t c r c' r', exec i s = .next t → i.variant? = some .mbc1 → s.HasMbc1 c r → t.HasMbc1 c' r' → r' ≠ r →
    c'.image = c.image ∧ c'.hdr = c.hdr ∧ t.loading = s.loading ∧ t.queue = s.queue ∧ t.reply = some .ok ∧
    ∃ a d, (i = .wrRamen a d ∧ r' = { r with ramen := d }) ∨
      (i = .wrRomb a d ∧ r' = { r with romb := if d = 0x00#8 then 0x01#8 else d }) ∨
      (i = .wrRamb a d ∧ r' = { r with ramb := d }) ∨ (i = .wrMode a d ∧ r' = { r with mode := d })

/-- The image changes only by WR.RAM, through the open gate, and then no register and no header byte changes (R22, R63,
R56). -/
def Obligations.ImageChangesOnlyThroughTheOpenGate : Prop :=
  ∀ i v s t c c', exec i s = .next t → i.variant? = some v → s.cart = some c → t.cart = some c' → c'.image ≠ c.image →
    c'.ctrl = c.ctrl ∧ c'.hdr = c.hdr ∧ t.loading = s.loading ∧ t.queue = s.queue ∧ t.reply = some .ok ∧
    ∃ a d r, i = .wrRam a d ∧ c.ctrl = .mbc1 r ∧ r.ramen &&& 0x0F#8 = 0x0A#8

/-- What an error does to the state: nothing (R193). A transaction that fails leaves the cartridge, whole, and the
requests behind it; a LOAD that fails, at its beginning or in the selector, builds no cartridge. (A LOAD where there was
a cartridge before: `LoadErrorsInOrder`.) The selector's own step is the model's choice (log 3). -/
def Obligations.ErrorsChangeNothing : Prop :=
  (∀ s t w rest e, s.NextIs w rest → step s = .next t → t.reply = some (.err e) →
    t.cart = s.cart ∧ t.loading = none ∧ t.queue = rest) ∧
  (∀ s t src rest e, s.loading = none → s.cart = none → s.queue = .load src :: rest → step s = .next t →
    t.reply = some (.err e) → t.cart = none ∧ t.loading = none ∧ t.queue = rest) ∧
  (∀ s t l e, s.loading = some l → s.cart = none → step s = .next t → t.reply = some (.err e) →
    t.cart = none ∧ t.loading = none ∧ t.queue = s.queue)

/-- After an error the block is not stopped, locked or marked: the next request is served just as if the failing
transaction had not been issued, and a next transaction has its result (R194). -/
def Obligations.ServiceGoesOnAfterAnError : Prop :=
  ∀ s t w q rest e, s.NextIs w (q :: rest) → step s = .next t → t.reply = some (.err e) →
    step t = step (s.setQueue (q :: rest)) ∧ ∀ w', q = .bus w' → ∃ u, step t = .next u

/-- The capacity guard (R53): on an MBC1 cartridge a transaction of either direction at or above `CAPACITY` fails with
`AddressError` whatever its window and whatever the gate, and changes nothing; with `CAPACITY >= 0x10000` the guard
never fails. (What it means for the RAM window: `RamOffsetsStayInTheImage`.) -/
def Obligations.CapacityGuardComesFirst : Prop :=
  (∀ s c r w rest, s.NextIs w rest → s.HasMbc1 c r → c.image.capacity ≤ (BusWord.addr w).toNat →
    step s = .next ((s.setQueue rest).setReply (some (.err .addressError)))) ∧
  (∀ img a, capOk img a = true ↔ a.toNat < img.capacity) ∧
  (∀ img a, 0x10000 ≤ img.capacity → capOk img a = true)

/-- The RAM gate (R186): on an MBC1 cartridge a transaction of the RAM window that passes the capacity guard fails with
`RamDisabledError` exactly when the low nibble of `RAMEN` is not 0xA, and the NOBANK variant never answers it. -/
def Obligations.RamDisabledExactlyWhenTheGateIsClosed : Prop :=
  (∀ s t c r w rest, s.NextIs w rest → s.HasMbc1 c r → step s = .next t →
    (t.reply = some (.err .ramDisabledError) ↔
      AddressValue.inRange (BusWord.addr w) 0xA000 0xBFFF = true ∧ (BusWord.addr w).toNat < c.image.capacity ∧
        r.ramen &&& 0x0F#8 ≠ 0x0A#8)) ∧
  (∀ s t c w rest, s.NextIs w rest → s.HasNobank c → step s = .next t → t.reply ≠ some (.err .ramDisabledError))

/-- The invariant of `Safety.lean`: canonical images, `ROMB` not 0x00 (R25), an accepted header, the variant its type
byte gives (R21), and never a cartridge beside a load under way. Every step keeps it, from every state that has it. The
last conjunct is the model's: that a load can be under way between two steps (log 3), and that the old cartridge is gone
at once (log 4). -/
def Obligations.StepKeepsTheInvariant : Prop :=
  ∀ s t, s.Inv → step s = .next t → t.Inv

/-- `State.reset` has the invariant. Its image is the model's choice (log 5); RAMEN, RAMB and MODE, which the invariant
leaves open, are D2 (log 6). -/
def Obligations.ResetHasTheInvariant : Prop := State.reset.Inv

/-- `State.reset` is what LOAD leaves of its image (R210, R211, R33), from an empty slot. The image is the model's choice
(log 5), and so are the two steps (log 3); RAMEN, RAMB and MODE are the spec's decision D2 (log 6). -/
def Obligations.ResetIsWhatLoadLeaves : Prop :=
  ∃ bytes, run 2 { cart := none, loading := none, queue := [.load (.memory bytes)], reply := none } =
    .next (State.reset.setReply (some .ok))

/-- `variant` is fixed at load by the type byte `hdr[0x47]` and never changes afterwards, and it selects the decode table
(R21). The selector's own step is the model's choice (log 3). -/
def Obligations.VariantIsFixedByTheTypeByte : Prop :=
  (∀ s t l, s.loading = some l → step s = .next t → t.reply = some .ok →
    ∃ c, t.cart = some c ∧ c.hdr = l.hdr ∧ variantOfType l.hdr.typeByte = some c.variant) ∧
  (∀ s t w rest c, s.NextIs w rest → s.cart = some c → step s = .next t →
    step s = exec (decodeBus c.variant w) (s.setQueue rest) ∧ ∃ c', t.cart = some c' ∧ c'.variant = c.variant)

/-- `hdr` is the snapshot of the 80 bytes at `HEADER_BASE` of the delivered image, and no transaction changes it, not
even one that writes those image bytes (R23). `HEADER_BASE` is an open parameter (D6, log 10); the two steps of a LOAD
are the model's choice (log 3). -/
def Obligations.HeaderIsASnapshot : Prop :=
  (∀ s t src bytes rest l, s.loading = none → s.queue = .load src :: rest → src.deliver = some bytes →
    step s = .next t → t.loading = some l →
    Config.headerBase + 80 ≤ bytes.length ∧ ∀ (i : Fin 80), bytes[Config.headerBase + i.val]? = some l.hdr[i]) ∧
  (∀ s t l c, s.loading = some l → step s = .next t → t.cart = some c → s.cart = none → c.hdr = l.hdr) ∧
  (∀ s t w rest c c', s.NextIs w rest → s.cart = some c → step s = .next t → t.cart = some c' →
    c'.hdr = c.hdr ∧ c'.image.capacity = c.image.capacity)

/-! ## The bank translation -/

/-- Offsets as bit strings (R89): `{RAMB[1:0], ROMB[4:0], A[13:0]}`, `{ROMB[4:0], A[13:0]}`, `{RAMB[1:0], A[12:0]}`. Which
bits of `RAMB` count, and where they stand, are the spec's decisions D3 and D4 (logs 7 and 8). -/
def Obligations.OffsetsAreBitStrings : Prop :=
  ∀ (r : Mbc1Regs) (a : Addr),
    (0x4000 ≤ a.toNat → a.toNat ≤ 0x7FFF → r.mode = 0x00#8 →
      romxOff r a = (r.ramb.extractLsb' 0 2 ++ r.romb.extractLsb' 0 5 ++ a.extractLsb' 0 14).toNat) ∧
    (0x4000 ≤ a.toNat → a.toNat ≤ 0x7FFF → r.mode ≠ 0x00#8 →
      romxOff r a = (r.romb.extractLsb' 0 5 ++ a.extractLsb' 0 14).toNat) ∧
    (0xA000 ≤ a.toNat → a.toNat ≤ 0xBFFF → r.mode = 0x00#8 → ramOff r a = a.toNat) ∧
    (0xA000 ≤ a.toNat → a.toNat ≤ 0xBFFF → r.mode ≠ 0x00#8 →
      ramOff r a = (r.ramb.extractLsb' 0 2 ++ a.extractLsb' 0 13).toNat)

/-- In both RAM cases the offset is below `CAPACITY` whenever the capacity guard passed (R58, the spec's inference), and
with RAM banking it is a byte of the first 32 KiB; both rest there on the mask of `RAMB`, the spec's decision D3 (log 7).
With `CAPACITY <= 0xA000` no address of the RAM window passes the guard (R53, the spec's inference). -/
def Obligations.RamOffsetsStayInTheImage : Prop :=
  ∀ img r a, 0xA000 ≤ a.toNat → a.toNat ≤ 0xBFFF →
    (capOk img a = true → ramOff r a < img.capacity ∧ (r.mode ≠ 0x00#8 → ramOff r a < 0x8000)) ∧
    (img.capacity ≤ 0xA000 → capOk img a = false)

/-- Two different values of `RAMB & 3` give disjoint offset ranges in RAM banking mode (R164, the spec's inference; D3,
log 7), and in one bank different addresses give different offsets. -/
def Obligations.RamBanksAreDisjoint : Prop :=
  ∀ r r' a b, 0xA000 ≤ a.toNat → a.toNat ≤ 0xBFFF → 0xA000 ≤ b.toNat → b.toNat ≤ 0xBFFF →
    r.mode ≠ 0x00#8 → r'.mode ≠ 0x00#8 → ramOff r a = ramOff r' b → r.ramb &&& 0x03#8 = r'.ramb &&& 0x03#8 ∧ a = b

/-- The fixed window is fixed in both modes: with the same image, a read of 0x0000 to 0x3FFF has the same reply whatever
the registers hold (R70). -/
def Obligations.FixedWindowIgnoresTheRegisters : Prop :=
  ∀ s c r r' a d rest, s.NextIs (busWord false a d) rest → s.HasMbc1 c r → a.toNat ≤ 0x3FFF →
    ∃ t t', step s = .next t ∧ step (s.setCart (some { c with ctrl := .mbc1 r' })) = .next t' ∧
      t'.reply = t.reply ∧ t.cart = s.cart

/-- The stored bits that no rule reads are unobservable (R28, the spec's inference): two MBC1 cartridges that differ in
them only give the same reply to every transaction and go on differing in them only. -/
def Obligations.UnusedRegisterBitsAreUnobservable : Prop :=
  ∀ s c r r' w rest, s.NextIs w rest → s.HasMbc1 c r → r'.visible = r.visible →
    ∃ t t' c₁ r₁ r₁', step s = .next t ∧ step (s.setCart (some { c with ctrl := .mbc1 r' })) = .next t' ∧
      t'.reply = t.reply ∧ t'.queue = t.queue ∧ t'.loading = t.loading ∧
      t.HasMbc1 c₁ r₁ ∧ t'.cart = some { c₁ with ctrl := .mbc1 r₁' } ∧ r₁'.visible = r₁.visible

/-- A byte written to the open RAM window is what the next read of the same address returns, in either mode and every
bank (R64, R164). For values of `RAMB` above 0x03 it rests on the mask, the spec's decision D3 (log 7). -/
def Obligations.RamReadReturnsTheByteWritten : Prop :=
  ∀ s c r a d x rest, s.NextIs (busWord true a d) (.bus (busWord false a x) :: rest) → s.HasMbc1 c r →
    c.image.wf = true → 0xA000 ≤ a.toNat → a.toNat ≤ 0xBFFF → a.toNat < c.image.capacity →
    r.ramen &&& 0x0F#8 = 0x0A#8 →
    ∃ t, run 2 s = .next t ∧ t.reply = some (.data d) ∧ t.queue = rest

/-- Switching the RAM bank and back does not perturb the byte of the untouched bank (R164): write in one bank, select
another, write the same address there, select the first again, read. The two banks differ in `RAMB & 3` (D3, log 7). -/
def Obligations.OtherRamBanksAreNotPerturbed : Prop :=
  ∀ s c r a p q d e b x rest, s.NextIs (busWord true a d)
      (.bus (busWord true p b) :: .bus (busWord true a e) :: .bus (busWord true q r.ramb) ::
        .bus (busWord false a x) :: rest) →
    s.HasMbc1 c r → c.image.wf = true → 0xA000 ≤ a.toNat → a.toNat ≤ 0xBFFF → a.toNat < c.image.capacity →
    0x4000 ≤ p.toNat → p.toNat ≤ 0x5FFF → 0x4000 ≤ q.toNat → q.toNat ≤ 0x5FFF →
    r.ramen &&& 0x0F#8 = 0x0A#8 → r.mode ≠ 0x00#8 → b &&& 0x03#8 ≠ r.ramb &&& 0x03#8 →
    ∃ t, run 5 s = .next t ∧ t.reply = some (.data d) ∧ t.queue = rest

/-- One image, two uses (R59, the spec's inference): a byte written through the RAM window is what the ROM windows show
of the same image byte. In RAM banking mode the banks 0 and 1 are in the fixed window, the banks 2 and 3 in the
switchable one when the ROM bank index is 1; in ROM banking mode the bytes are the upper half of ROM bank 2. -/
def Obligations.RamWritesShowInTheRomWindows : Prop :=
  ∀ s c r a b d x rest, s.NextIs (busWord true a d) (.bus (busWord false b x) :: rest) → s.HasMbc1 c r →
    c.image.wf = true → 0xA000 ≤ a.toNat → a.toNat ≤ 0xBFFF → a.toNat < c.image.capacity →
    r.ramen &&& 0x0F#8 = 0x0A#8 →
    ((r.mode ≠ 0x00#8 ∧ (r.ramb &&& 0x03#8).toNat < 2 ∧
        b.toNat = (r.ramb &&& 0x03#8).toNat * 0x2000 + (a.toNat - 0xA000)) ∨
      (r.mode ≠ 0x00#8 ∧ 2 ≤ (r.ramb &&& 0x03#8).toNat ∧ r.romb &&& 0x1F#8 = 0x01#8 ∧
        b.toNat = (r.ramb &&& 0x03#8).toNat * 0x2000 + (a.toNat - 0xA000)) ∨
      (r.mode = 0x00#8 ∧ r.ramb &&& 0x03#8 = 0x00#8 ∧ r.romb &&& 0x1F#8 = 0x02#8 ∧ b.toNat = a.toNat - 0x4000)) →
    ∃ t, run 2 s = .next t ∧ t.reply = some (.data d) ∧ t.queue = rest

/-- A register write is seen by the very next transaction, whatever register and whatever transaction (R215): after a
write of `RAMEN`, `ROMB`, `RAMB` or `MODE` the next transaction is served just as in the state that holds the new value.
Spelled out for the windows that registers act on: the reply of a read of the switchable window, of a read of the RAM
window, and what a write of the RAM window does, gate open and gate closed. The offsets rest on D3 and D4, the error of
an offset beyond the image on D1 (logs 7, 8, 9). -/
def Obligations.BankSwitchIsSeenAtOnce : Prop :=
  ∀ s c r r' p d w rest, s.NextIs (busWord true p d) (.bus w :: rest) → s.HasMbc1 c r → p.toNat < c.image.capacity →
    ((p.toNat ≤ 0x1FFF ∧ r' = { r with ramen := d }) ∨
      (0x2000 ≤ p.toNat ∧ p.toNat ≤ 0x3FFF ∧ r' = { r with romb := if d = 0x00#8 then 0x01#8 else d }) ∨
      (0x4000 ≤ p.toNat ∧ p.toNat ≤ 0x5FFF ∧ r' = { r with ramb := d }) ∨
      (0x6000 ≤ p.toNat ∧ p.toNat ≤ 0x7FFF ∧ r' = { r with mode := d })) →
    run 2 s = step (((s.setQueue (.bus w :: rest)).setCart (some { c with ctrl := .mbc1 r' })).setReply (some .ok)) ∧
    (∀ a x, w = busWord false a x → 0x4000 ≤ a.toNat → a.toNat ≤ 0x7FFF → a.toNat < c.image.capacity →
      run 2 s = .next (((s.setQueue rest).setCart (some { c with ctrl := .mbc1 r' })).setReply
        (some (if romxOff r' a < c.image.capacity then .data (c.image.read (romxOff r' a)) else .err .addressError)))) ∧
    (∀ a x, w = busWord false a x → 0xA000 ≤ a.toNat → a.toNat ≤ 0xBFFF → a.toNat < c.image.capacity →
      run 2 s = .next (((s.setQueue rest).setCart (some { c with ctrl := .mbc1 r' })).setReply
        (some (if r'.ramen &&& 0x0F#8 = 0x0A#8 then .data (c.image.read (ramOff r' a)) else .err .ramDisabledError)))) ∧
    (∀ a x, w = busWord true a x → 0xA000 ≤ a.toNat → a.toNat ≤ 0xBFFF → a.toNat < c.image.capacity →
      (r'.ramen &&& 0x0F#8 = 0x0A#8 → run 2 s = .next (((s.setQueue rest).setCart
        (some { c with image := c.image.write (ramOff r' a) x, ctrl := .mbc1 r' })).setReply (some .ok))) ∧
      (r'.ramen &&& 0x0F#8 ≠ 0x0A#8 → run 2 s = .next (((s.setQueue rest).setCart
        (some { c with ctrl := .mbc1 r' })).setReply (some (.err .ramDisabledError)))))

/-- Every register state with `ROMB != 0` is reached in at most four writes, provided `CAPACITY > 0x6000` (R167, the
spec's inference), from any MBC1 state, and no image byte changes on the way. -/
def Obligations.EveryRegisterStateIsReachable : Prop :=
  ∀ (s : State) c r (r' : Mbc1Regs), s.HasMbc1 c r → s.loading = none → 0x6000 < c.image.capacity → r'.romb ≠ 0x00#8 →
    ∃ ws : List BusWord, ws.length ≤ 4 ∧ (∀ w ∈ ws, BusWord.isWrite w = true) ∧
      ∃ t, run ws.length (s.setQueue (ws.map .bus ++ s.queue)) = .next t ∧
        t.cart = some { c with ctrl := .mbc1 r' } ∧ t.queue = s.queue ∧ t.loading = none

/-! ## LOAD -/

/-- LOAD (R211): from a delivered byte sequence with room for a header, a matching checksum and a type byte 0x00 to 0x03,
the cartridge exists two steps later: `CAPACITY` is the length, the image is the bytes, the header is the slice, the
variant is the type byte's, and MBC1 registers hold their reset values (D2, log 6; `HEADER_BASE` D6, log 10; the order of
the checks D14, log 21; two steps, log 3). What was in the slot plays no part. -/
def Obligations.LoadBuildsTheDeliveredCartridge : Prop :=
  ∀ s src bytes rest (h : Header) v, s.loading = none → s.queue = .load src :: rest →
    (src = .memory bytes ∨ src = .stream true true bytes) →
    Config.headerBase + 80 ≤ bytes.length → (∀ (i : Fin 80), bytes[Config.headerBase + i.val]? = some h[i]) →
    h.cks = h[0x4D] → variantOfType h[0x47] = some v →
    ∃ c, run 2 s = .next { cart := some c, loading := none, queue := rest, reply := some .ok } ∧
      c.hdr = h ∧ c.variant = v ∧ c.image.wf = true ∧ c.image.capacity = bytes.length ∧
      (∀ (i : Fin bytes.length), c.image.read i.val = bytes[i]) ∧
      (v = .mbc1 → c.ctrl = .mbc1 ⟨0x00#8, 0x01#8, 0x00#8, 0x00#8⟩)

/-- The errors of LOAD and their order (R191; the order is the spec's decision D14, log 21): `IOError`, `FormatError`,
`ChecksumError` in the first step, `UnsupportedCartridgeError` in the second. No cartridge exists after any of them, not
even one that was there before (log 4); the two steps are the model's choice (log 3). -/
def Obligations.LoadErrorsInOrder : Prop :=
  ∀ s src rest, s.loading = none → s.queue = .load src :: rest →
    ((∃ readable seekable bytes, src = .stream readable seekable bytes ∧ (readable && seekable) = false) →
      step s = .next { cart := none, loading := none, queue := rest, reply := some (.err .ioError) }) ∧
    (∀ bytes, (src = .memory bytes ∨ src = .stream true true bytes) →
      (bytes.length < Config.headerBase + 80 →
        step s = .next { cart := none, loading := none, queue := rest, reply := some (.err .formatError) }) ∧
      (Config.headerBase + 80 ≤ bytes.length → ∀ (h : Header),
        (∀ (i : Fin 80), bytes[Config.headerBase + i.val]? = some h[i]) →
        (h.cks ≠ h[0x4D] →
          step s = .next { cart := none, loading := none, queue := rest, reply := some (.err .checksumError) }) ∧
        (h.cks = h[0x4D] → variantOfType h[0x47] = none →
          run 2 s =
            .next { cart := none, loading := none, queue := rest,
                    reply := some (.err .unsupportedCartridgeError) })))

/-- A LOAD builds a cartridge with new state and shares nothing with an earlier one (R210): its first step is the same
whatever the slot held, and leaves the slot empty (log 4) for the selector's, which always answers (log 3). -/
def Obligations.LoadSharesNothingWithTheOldCartridge : Prop :=
  ∀ s src rest old, s.loading = none → s.queue = .load src :: rest →
    step s = step (s.setCart old) ∧
    ∀ t l, step s = .next t → t.loading = some l → t.cart = none ∧ ∃ u, step t = .next u

/-- Both entry points give the same (R130); the stream one fails with `IOError` if the stream is not readable or the seek
fails, and nothing is built (R131). That a stream fails as a whole, by its two flags, is the model's reading (log 22);
that a cartridge which was there before is gone then is too (log 4). -/
def Obligations.StreamAndMemorySourcesAgree : Prop :=
  ∀ s bytes, beginLoad (.stream true true bytes) s = beginLoad (.memory bytes) s ∧
    ∀ readable seekable, (readable = false ∨ seekable = false) →
      beginLoad (.stream readable seekable bytes) s =
        .next { cart := none, loading := none, queue := s.queue, reply := some (.err .ioError) }

/-! ## The header -/

/-- `Cks` (R122): the loop over header offsets 0x34 to 0x4C, ascending. -/
def Obligations.ChecksumIsTheRunningSubtraction : Prop :=
  ∀ h : Header, h.cks = (List.finRange 25).foldl (fun x (i : Fin 25) => x - h[0x34 + i.val] - 1#8) 0x00#8

/-- The closed form of `Cks`, and that the order of the region's bytes does not change it (R122, the spec's
inferences). -/
def Obligations.ChecksumIgnoresTheOrder : Prop :=
  (∀ h : Header, h.cks = - ((List.finRange 25).map fun (i : Fin 25) => h[0x34 + i.val]).sum - 25#8) ∧
  (∀ h h' : Header, ((List.finRange 25).map fun (i : Fin 25) => h[0x34 + i.val]).Perm
      ((List.finRange 25).map fun (i : Fin 25) => h'[0x34 + i.val]) → h.cks = h'.cks)

/-- `PARSE`: `FormatError` unless the input has exactly 80 bytes, whatever they are (R121; that the length comes first is
the spec's inference); then `ChecksumError` unless the checksum matches the byte at 0x4D; else the header is those bytes
(R123). An error carries no header. -/
def Obligations.ParseVerdict : Prop :=
  (∀ bytes, bytes.length ≠ 80 → parse bytes = .error .formatError) ∧
  (∀ h : Header, h.cks ≠ h[0x4D] → parse h.toList = .error .checksumError) ∧
  (∀ h : Header, h.cks = h[0x4D] → parse h.toList = .ok h)

/-- Sensitivity (R124): a header is accepted exactly when the sum of `-byte - 1` over the region is the stored byte;
replacing any one byte of the region, or the stored byte, by a different one makes an accepted header rejected; two
changes can cancel: adding 1 to the region's first byte and subtracting 1 from its second leaves an accepted header
accepted. In part the spec's inferences. -/
def Obligations.OneChangedByteIsRejected : Prop :=
  (∀ h : Header, parse h.toList = .ok h ↔
    ((List.finRange 25).map fun (i : Fin 25) => - h[0x34 + i.val] - 1#8).sum = h[0x4D]) ∧
  (∀ (h : Header) (b : Byte) (i : Fin 80), parse h.toList = .ok h → 0x34 ≤ i.val → i.val ≤ 0x4D → b ≠ h[i] →
    parse (h.set i b).toList = .error .checksumError) ∧
  (∀ h : Header, parse h.toList = .ok h →
    parse ((h.set 0x34 (h[0x34] + 1#8)).set 0x35 (h[0x35] - 1#8)).toList =
      .ok ((h.set 0x34 (h[0x34] + 1#8)).set 0x35 (h[0x35] - 1#8)))

/-- The entry point, the logo and the global checksum cannot make `PARSE` fail (R123, the spec's inference). -/
def Obligations.UncheckedBytesDoNotMatter : Prop :=
  ∀ (h : Header) (b : Byte) (i : Fin 80), i.val < 0x34 ∨ 0x4E ≤ i.val →
    (parse h.toList = .ok h ↔ parse (h.set i b).toList = .ok (h.set i b))

/-- The title (R126): the longest prefix of the 16 bytes at 0x34 that are ASCII digits or letters. That `ALNUM` is this
set is the spec's decision D9 (log 12). -/
def Obligations.TitleIsTheLongestAlphanumericPrefix : Prop :=
  ∀ h : Header, ∃ n, n ≤ 16 ∧ h.title = (h.toList.drop 0x34).take n ∧
    (∀ (i : Fin 16), i.val < n → (0x30#8 ≤ h[0x34 + i.val] ∧ h[0x34 + i.val] ≤ 0x39#8) ∨
      (0x41#8 ≤ h[0x34 + i.val] ∧ h[0x34 + i.val] ≤ 0x5A#8) ∨ (0x61#8 ≤ h[0x34 + i.val] ∧ h[0x34 + i.val] ≤ 0x7A#8)) ∧
    (∀ (i : Fin 16), i.val = n → ¬ ((0x30#8 ≤ h[0x34 + i.val] ∧ h[0x34 + i.val] ≤ 0x39#8) ∨
      (0x41#8 ≤ h[0x34 + i.val] ∧ h[0x34 + i.val] ≤ 0x5A#8) ∨ (0x61#8 ≤ h[0x34 + i.val] ∧ h[0x34 + i.val] ≤ 0x7A#8)))

/-- The field decoders (R125, R127, R128, R129): entry point and logo in ascending order; the licence code, the old byte
unless it is the sentinel 0x33; the global checksum, big-endian; the single bytes. -/
def Obligations.HeaderFieldsDecode : Prop :=
  ∀ h : Header,
    (h[0x4B] = 0x33#8 → h.licence = [h[0x44], h[0x45]]) ∧ (h[0x4B] ≠ 0x33#8 → h.licence = [h[0x4B]]) ∧
    h.entry = [h[0x00], h[0x01], h[0x02], h[0x03]] ∧
    (h.logo.length = 48 ∧ ∀ (i : Fin 48), h.logo[i.val]? = some h[0x04 + i.val]) ∧
    h.global.toNat = h[0x4E].toNat * 256 + h[0x4F].toNat ∧
    h.sgb = h[0x46] ∧ h.typeByte = h[0x47] ∧ h.romSize = h[0x48] ∧ h.ramSize = h[0x49] ∧ h.destination = h[0x4A] ∧
    h.oldLicence = h[0x4B] ∧ h.version = h[0x4C] ∧ h.headerChecksum = h[0x4D]

/-- The checksum is checked before any metadata is exposed (R123): while a LOAD is under way and after it, a header is
exposed only if it was accepted; after a failed one none is, not even an earlier cartridge's (log 4). That an accepted
header stands in the state before its cartridge exists is the model's choice (log 3). -/
def Obligations.MetadataIsExposedOnlyAfterParse : Prop :=
  (∀ (s : State) h, s.Inv → s.exposedHeader = some h → parse h.toList = .ok h) ∧
  (∀ s t src rest e, s.loading = none → s.queue = .load src :: rest → step s = .next t → t.reply = some (.err e) →
    t.exposedHeader = none)

/-! ## The address value -/

/-- `inRange` (R111) and saturating subtraction (R113). -/
def Obligations.AddressRangesAndSubtraction : Prop :=
  (∀ a lo hi, AddressValue.inRange a lo hi = true ↔ lo.toNat ≤ a.toNat ∧ a.toNat ≤ hi.toNat) ∧
  (∀ a k, k ≤ a.toNat → (AddressValue.satSub a k).toNat = a.toNat - k) ∧
  (∀ a k, a.toNat < k → AddressValue.satSub a k = AddressValue.ofRaw 0x0000#16)

/-- Addition (R112) is the exact sum where it fits 16 bits, and has no result where it does not (U1, log 17). -/
def Obligations.AddressAdditionIsExactOrNone : Prop :=
  ∀ a k, (a.toNat + k ≤ 0xFFFF → ∃ b, AddressValue.add? a k = some b ∧ b.toNat = a.toNat + k) ∧
    (0xFFFF < a.toNat + k → AddressValue.add? a k = none)
end

