-- ==== Sys2Proof/Laws/Decode.lean ====
section
/-! SUPPORT. The packed word's fields, the window an address lies in, and the variant a decoded operation is of. -/

namespace Sys2Proof

@[simp] theorem BusWord.isWrite_busWord (w : Bool) (a : Addr) (d : Byte) :
    BusWord.isWrite (busWord w a d) = w := by
  simp only [BusWord.isWrite, busWord, BitVec.getLsbD_append, BitVec.getLsbD_ofBool]
  simp

@[simp] theorem BusWord.addr_busWord (w : Bool) (a : Addr) (d : Byte) : BusWord.addr (busWord w a d) = a := by
  apply BitVec.eq_of_getLsbD_eq
  intro i hi
  simp only [BusWord.addr, busWord, BitVec.getLsbD_extractLsb', BitVec.getLsbD_append]
  simp [hi, show ¬ 8 + i < 8 by omega, show 8 + i - 8 = i by omega]

@[simp] theorem BusWord.data_busWord (w : Bool) (a : Addr) (d : Byte) : BusWord.data (busWord w a d) = d := by
  apply BitVec.eq_of_getLsbD_eq
  intro i hi
  simp only [BusWord.data, busWord, BitVec.getLsbD_extractLsb', BitVec.getLsbD_append]
  simp [hi]

/-- A word is the packing of its fields (R80). -/
theorem BusWord.eq_busWord (t : BusWord) :
    t = busWord (BusWord.isWrite t) (BusWord.addr t) (BusWord.data t) := by
  apply BitVec.eq_of_getLsbD_eq
  intro i hi
  simp only [BusWord.isWrite, BusWord.addr, BusWord.data, busWord, BitVec.getLsbD_append,
    BitVec.getLsbD_extractLsb', BitVec.getLsbD_ofBool]
  by_cases h8 : i < 8
  · simp [h8]
  · by_cases h24 : i - 8 < 16
    · simp [h8, h24, show 8 + (i - 8) = i by omega]
    · simp [show i = 24 by omega]

/-- The packed word as a number. -/
theorem busWord_toNat (w : Bool) (a : Addr) (d : Byte) :
    (busWord w a d).toNat = w.toNat * 0x1000000 + a.toNat * 0x100 + d.toNat := by
  have ha := a.isLt
  have hd := d.isLt
  simp only [busWord, BitVec.toNat_append, BitVec.toNat_ofBool]
  rw [← Nat.shiftLeft_add_eq_or_of_lt (by omega), ← Nat.shiftLeft_add_eq_or_of_lt (by omega)]
  simp only [Nat.shiftLeft_eq]
  omega

/-- Masking with ones from bit `k` up keeps the high part. -/
theorem and_highMask_toNat (t : BusWord) (k : Nat) :
    (t &&& (BitVec.allOnes 25 <<< k)).toNat = t.toNat / 2 ^ k * 2 ^ k := by
  have h : t &&& (BitVec.allOnes 25 <<< k) = t >>> k <<< k := by
    apply BitVec.eq_of_getLsbD_eq
    intro i hi
    simp only [BitVec.getLsbD_and, BitVec.getLsbD_shiftLeft, BitVec.getLsbD_allOnes, BitVec.getLsbD_ushiftRight]
    by_cases hk : i < k
    · simp [hk]
    · simp [hk, hi, show k + (i - k) = i by omega, show i - k < 25 by omega]
  rw [h, BitVec.toNat_shiftLeft, BitVec.toNat_ushiftRight, Nat.shiftRight_eq_div_pow, Nat.shiftLeft_eq]
  exact Nat.mod_eq_of_lt (Nat.lt_of_le_of_lt (Nat.div_mul_le_self _ _) t.isLt)

/-- What a mask of ones from bit `k` up selects (R87). -/
theorem and_highMask_iff (t m b : BusWord) (k : Nat) (hm : m = BitVec.allOnes 25 <<< k) :
    t &&& m = b ↔ t.toNat / 2 ^ k * 2 ^ k = b.toNat := by
  rw [hm, ← BitVec.toNat_inj, and_highMask_toNat]

/-- `A[15:13]` is the number of the 8 KiB window the address lies in. -/
theorem topBits_eq (a : Addr) : (a.extractLsb' 13 3).toNat = a.toNat / 0x2000 := by
  have := a.isLt
  simp only [BitVec.extractLsb'_toNat, Nat.shiftRight_eq_div_pow]
  omega

theorem inRange_iff (a : Addr) (lo hi : BitVec 16) :
    AddressValue.inRange a lo hi = true ↔ lo.toNat ≤ a.toNat ∧ a.toNat ≤ hi.toNat := by
  simp [AddressValue.inRange]

/-- The MBC1 read decode by address ranges, tested in the order the source lists them (R84). -/
theorem decodeMbc1Read_eq (a : Addr) :
    decodeMbc1Read a =
      if a.toNat ≤ 0x3FFF then .rdRom0 a else if a.toNat ≤ 0x7FFF then .rdRomx a
      else if a.toNat ≤ 0x9FFF then .rdUnmapped8 a else if a.toNat ≤ 0xBFFF then .rdRam a else .rdUnmappedC a := by
  have ha := a.isLt
  simp only [decodeMbc1Read, topBits_eq]
  generalize hk : a.toNat / 0x2000 = k
  have hk8 : k < 8 := by omega
  interval_cases k <;> simp only [] <;> split_ifs <;> first | rfl | omega

/-- The MBC1 write decode by address ranges, tested in the order the source lists them (R85). -/
theorem decodeMbc1Write_eq (a : Addr) (d : Byte) :
    decodeMbc1Write a d =
      if a.toNat ≤ 0x1FFF then .wrRamen a d else if a.toNat ≤ 0x3FFF then .wrRomb a d
      else if a.toNat ≤ 0x5FFF then .wrRamb a d else if a.toNat ≤ 0x7FFF then .wrMode a d
      else if a.toNat ≤ 0x9FFF then .wrUnmapped8 a d else if a.toNat ≤ 0xBFFF then .wrRam a d
      else .wrUnmappedC a d := by
  have ha := a.isLt
  simp only [decodeMbc1Write, topBits_eq]
  generalize hk : a.toNat / 0x2000 = k
  have hk8 : k < 8 := by omega
  interval_cases k <;> simp only [] <;> split_ifs <;> first | rfl | omega

/-- `A[15]` says whether the address is above 0x7FFF (R86). -/
theorem addrBit15_eq (a : Addr) : a.getLsbD 15 = decide (0x8000 ≤ a.toNat) := by
  have ha := a.isLt
  rw [BitVec.getLsbD, Nat.testBit_eq_decide_div_mod_eq]
  congr 1
  simp only [eq_iff_iff]
  omega

/-- The decode tables on a packed transaction. -/
theorem decodeBus_mbc1_read (a : Addr) (d : Byte) : decodeBus .mbc1 (busWord false a d) = decodeMbc1Read a := by
  simp [decodeBus]

theorem decodeBus_mbc1_write (a : Addr) (d : Byte) : decodeBus .mbc1 (busWord true a d) = decodeMbc1Write a d := by
  simp [decodeBus]

theorem decodeBus_nobank_read (a : Addr) (d : Byte) :
    decodeBus .nobank (busWord false a d) = if 0x8000 ≤ a.toNat then .nbRdUnmapped a else .nbRdRom a := by
  simp only [decodeBus, BusWord.isWrite_busWord, BusWord.addr_busWord, addrBit15_eq, decide_eq_true_eq]

theorem decodeBus_nobank_write (a : Addr) (d : Byte) : decodeBus .nobank (busWord true a d) = .nbWr a d := by
  simp [decodeBus]

/-- A decoded transaction is an operation of the variant whose table was used (R92). -/
theorem decodeBus_variant (v : Variant) (t : BusWord) : (decodeBus v t).variant? = some v := by
  unfold decodeBus
  split
  · rw [decodeMbc1Read_eq]; split_ifs <;> rfl
  · rw [decodeMbc1Write_eq]; split_ifs <;> rfl
  · split_ifs <;> rfl
  · rfl

/-- A decoded type byte is no bus operation. -/
theorem decodeCt_variant (t : Byte) : (decodeCt t).variant? = none := by
  unfold decodeCt
  split <;> rfl

end Sys2Proof
end

