-- ==== Sys2Proof/Laws/State.lean ====
section
/-! SUPPORT. One lemma per field per update of the state, the registers, the cartridge and the image. -/

namespace Sys2Proof.Machine

@[simp] theorem State.setCart_cart (s : State) (v : Option Cartridge) : (s.setCart v).cart = v := rfl
@[simp] theorem State.setCart_loading (s : State) (v : Option Cartridge) : (s.setCart v).loading = s.loading := rfl
@[simp] theorem State.setCart_queue (s : State) (v : Option Cartridge) : (s.setCart v).queue = s.queue := rfl
@[simp] theorem State.setCart_reply (s : State) (v : Option Cartridge) : (s.setCart v).reply = s.reply := rfl

@[simp] theorem State.setLoading_cart (s : State) (v : Option Loading) : (s.setLoading v).cart = s.cart := rfl
@[simp] theorem State.setLoading_loading (s : State) (v : Option Loading) : (s.setLoading v).loading = v := rfl
@[simp] theorem State.setLoading_queue (s : State) (v : Option Loading) : (s.setLoading v).queue = s.queue := rfl
@[simp] theorem State.setLoading_reply (s : State) (v : Option Loading) : (s.setLoading v).reply = s.reply := rfl

@[simp] theorem State.setQueue_cart (s : State) (v : List Request) : (s.setQueue v).cart = s.cart := rfl
@[simp] theorem State.setQueue_loading (s : State) (v : List Request) : (s.setQueue v).loading = s.loading := rfl
@[simp] theorem State.setQueue_queue (s : State) (v : List Request) : (s.setQueue v).queue = v := rfl
@[simp] theorem State.setQueue_reply (s : State) (v : List Request) : (s.setQueue v).reply = s.reply := rfl

@[simp] theorem State.setReply_cart (s : State) (v : Option Reply) : (s.setReply v).cart = s.cart := rfl
@[simp] theorem State.setReply_loading (s : State) (v : Option Reply) : (s.setReply v).loading = s.loading := rfl
@[simp] theorem State.setReply_queue (s : State) (v : Option Reply) : (s.setReply v).queue = s.queue := rfl
@[simp] theorem State.setReply_reply (s : State) (v : Option Reply) : (s.setReply v).reply = v := rfl

@[simp] theorem Mbc1Regs.setRamen_ramen (r : Mbc1Regs) (v : Byte) : (r.setRamen v).ramen = v := rfl
@[simp] theorem Mbc1Regs.setRamen_romb (r : Mbc1Regs) (v : Byte) : (r.setRamen v).romb = r.romb := rfl
@[simp] theorem Mbc1Regs.setRamen_ramb (r : Mbc1Regs) (v : Byte) : (r.setRamen v).ramb = r.ramb := rfl
@[simp] theorem Mbc1Regs.setRamen_mode (r : Mbc1Regs) (v : Byte) : (r.setRamen v).mode = r.mode := rfl

@[simp] theorem Mbc1Regs.setRomb_ramen (r : Mbc1Regs) (v : Byte) : (r.setRomb v).ramen = r.ramen := rfl
@[simp] theorem Mbc1Regs.setRomb_romb (r : Mbc1Regs) (v : Byte) : (r.setRomb v).romb = v := rfl
@[simp] theorem Mbc1Regs.setRomb_ramb (r : Mbc1Regs) (v : Byte) : (r.setRomb v).ramb = r.ramb := rfl
@[simp] theorem Mbc1Regs.setRomb_mode (r : Mbc1Regs) (v : Byte) : (r.setRomb v).mode = r.mode := rfl

@[simp] theorem Mbc1Regs.setRamb_ramen (r : Mbc1Regs) (v : Byte) : (r.setRamb v).ramen = r.ramen := rfl
@[simp] theorem Mbc1Regs.setRamb_romb (r : Mbc1Regs) (v : Byte) : (r.setRamb v).romb = r.romb := rfl
@[simp] theorem Mbc1Regs.setRamb_ramb (r : Mbc1Regs) (v : Byte) : (r.setRamb v).ramb = v := rfl
@[simp] theorem Mbc1Regs.setRamb_mode (r : Mbc1Regs) (v : Byte) : (r.setRamb v).mode = r.mode := rfl

@[simp] theorem Mbc1Regs.setMode_ramen (r : Mbc1Regs) (v : Byte) : (r.setMode v).ramen = r.ramen := rfl
@[simp] theorem Mbc1Regs.setMode_romb (r : Mbc1Regs) (v : Byte) : (r.setMode v).romb = r.romb := rfl
@[simp] theorem Mbc1Regs.setMode_ramb (r : Mbc1Regs) (v : Byte) : (r.setMode v).ramb = r.ramb := rfl
@[simp] theorem Mbc1Regs.setMode_mode (r : Mbc1Regs) (v : Byte) : (r.setMode v).mode = v := rfl

@[simp] theorem Cartridge.setRegs_image (c : Cartridge) (r : Mbc1Regs) : (c.setRegs r).image = c.image := rfl
@[simp] theorem Cartridge.setRegs_hdr (c : Cartridge) (r : Mbc1Regs) : (c.setRegs r).hdr = c.hdr := rfl
@[simp] theorem Cartridge.setRegs_ctrl (c : Cartridge) (r : Mbc1Regs) : (c.setRegs r).ctrl = .mbc1 r := rfl
@[simp] theorem Cartridge.setImage_image (c : Cartridge) (m : Image) : (c.setImage m).image = m := rfl
@[simp] theorem Cartridge.setImage_hdr (c : Cartridge) (m : Image) : (c.setImage m).hdr = c.hdr := rfl
@[simp] theorem Cartridge.setImage_ctrl (c : Cartridge) (m : Image) : (c.setImage m).ctrl = c.ctrl := rfl

@[simp] theorem Image.write_capacity (m : Image) (off : Nat) (v : Byte) : (m.write off v).capacity = m.capacity := rfl
@[simp] theorem Image.ofBytes_capacity (bytes : List Byte) : (Image.ofBytes bytes).capacity = bytes.length := rfl

@[simp] theorem Controller.variant_nobank : Controller.nobank.variant = Variant.nobank := rfl
@[simp] theorem Controller.variant_mbc1 (r : Mbc1Regs) : (Controller.mbc1 r).variant = Variant.mbc1 := rfl

/-- Setting a field to what it holds changes nothing. -/
theorem State.setCart_self (s : State) : s.setCart s.cart = s := rfl

end Sys2Proof.Machine
end

