-- ==== Sys2Proof/Laws/Memory.lean ====
section
/-! SUPPORT. The laws of memory and of the image: read after write, the canonical form, and the image of a byte
sequence. -/

namespace Sys2Proof.Machine

/-- A canonical memory whose entries begin at `lo` lists nothing below `lo`. -/
theorem Memory.read_below (m : Memory) (lo off : Nat) (h : Memory.wfFrom lo m = true) (hlt : off < lo) :
    Memory.read m off = Memory.unlisted := by
  induction m generalizing lo with
  | nil => rfl
  | cons cell rest ih =>
    obtain ⟨k, b⟩ := cell
    simp only [Memory.wfFrom, Bool.and_eq_true, decide_eq_true_eq] at h
    simp only [Memory.read]
    rw [if_neg (by omega)]
    exact ih (k + 1) h.2 (by omega)

/-- A canonical form from `lo` is one from any lower bound. -/
theorem Memory.wfFrom_mono (m : Memory) (lo lo' : Nat) (h : Memory.wfFrom lo m = true) (hle : lo' ≤ lo) :
    Memory.wfFrom lo' m = true := by
  cases m with
  | nil => rfl
  | cons cell rest =>
    simp only [Memory.wfFrom, Bool.and_eq_true, decide_eq_true_eq] at h ⊢
    exact ⟨⟨by omega, h.1.2⟩, h.2⟩

/-- `cons` puts a byte in front of what lies above it. -/
theorem Memory.read_cons (off : Nat) (v : Byte) (rest : Memory) (a : Nat)
    (h : Memory.wfFrom (off + 1) rest = true) :
    Memory.read (Memory.cons off v rest) a = if a = off then v else Memory.read rest a := by
  unfold Memory.cons
  split
  · next hv =>
    split
    · next ha => rw [ha, Memory.read_below rest (off + 1) off h (by omega), hv]
    · rfl
  · simp only [Memory.read, eq_comm]

/-- `cons` keeps the canonical form. -/
theorem Memory.cons_wfFrom (off : Nat) (v : Byte) (rest : Memory) (lo : Nat) (hlo : lo ≤ off)
    (h : Memory.wfFrom (off + 1) rest = true) : Memory.wfFrom lo (Memory.cons off v rest) = true := by
  unfold Memory.cons
  split
  · exact Memory.wfFrom_mono rest (off + 1) lo h (by omega)
  · next hv => simp [Memory.wfFrom, hlo, hv, h]

/-- A write keeps the canonical form. -/
theorem Memory.write_wfFrom (m : Memory) (off : Nat) (v : Byte) (lo : Nat) (hlo : lo ≤ off)
    (h : Memory.wfFrom lo m = true) : Memory.wfFrom lo (Memory.write m off v) = true := by
  induction m generalizing lo with
  | nil => exact Memory.cons_wfFrom off v [] lo hlo rfl
  | cons cell rest ih =>
    obtain ⟨k, b⟩ := cell
    have h' := h
    simp only [Memory.wfFrom, Bool.and_eq_true, decide_eq_true_eq] at h'
    simp only [Memory.write]
    split
    · next hlt =>
      refine Memory.cons_wfFrom off v _ lo hlo ?_
      simp only [Memory.wfFrom, Bool.and_eq_true, decide_eq_true_eq]
      exact ⟨⟨by omega, h'.1.2⟩, h'.2⟩
    · split
      · next heq => subst heq; exact Memory.cons_wfFrom k v rest lo hlo h'.2
      · simp only [Memory.wfFrom, Bool.and_eq_true, decide_eq_true_eq]
        exact ⟨h'.1, ih (k + 1) (by omega) h'.2⟩

/-- What a read gives after a write: the byte written at its offset, and what it gave before everywhere else. -/
theorem Memory.read_write (m : Memory) (off : Nat) (v : Byte) (a lo : Nat) (h : Memory.wfFrom lo m = true) :
    Memory.read (Memory.write m off v) a = if a = off then v else Memory.read m a := by
  induction m generalizing lo with
  | nil => exact Memory.read_cons off v [] a rfl
  | cons cell rest ih =>
    obtain ⟨k, b⟩ := cell
    simp only [Memory.wfFrom, Bool.and_eq_true, decide_eq_true_eq] at h
    simp only [Memory.write]
    split
    · next hlt =>
      refine Memory.read_cons off v _ a ?_
      simp only [Memory.wfFrom, Bool.and_eq_true, decide_eq_true_eq]
      exact ⟨⟨by omega, h.1.2⟩, h.2⟩
    · split
      · next heq =>
        subst heq
        rw [Memory.read_cons k v rest a h.2]
        simp only [Memory.read]
        split
        · rfl
        · next hne => rw [if_neg (fun e => hne e.symm)]
      · next hne =>
        simp only [Memory.read, ih (k + 1) h.2]
        split
        · next hka => rw [if_neg (by omega)]
        · rfl

/-- Every offset a write lists was listed before, or is the one written. -/
theorem Memory.mem_write (m : Memory) (off : Nat) (v : Byte) (cell : Host.Cell) (h : cell ∈ Memory.write m off v) :
    cell ∈ m ∨ cell = (off, v) := by
  have cons_mem : ∀ rest : Memory, cell ∈ Memory.cons off v rest → cell ∈ rest ∨ cell = (off, v) := by
    intro rest hm
    unfold Memory.cons at hm
    split at hm
    · exact .inl hm
    · rcases List.mem_cons.mp hm with e | e
      · exact .inr e
      · exact .inl e
  induction m with
  | nil => exact cons_mem [] h
  | cons first rest ih =>
    obtain ⟨k, b⟩ := first
    simp only [Memory.write] at h
    split at h
    · exact cons_mem _ h
    · split at h
      · rcases cons_mem _ h with e | e
        · exact .inl (List.mem_cons_of_mem _ e)
        · exact .inr e
      · rcases List.mem_cons.mp h with e | e
        · exact .inl (e ▸ List.mem_cons_self)
        · rcases ih e with e | e
          · exact .inl (List.mem_cons_of_mem _ e)
          · exact .inr e

/-- The memory of a byte sequence is canonical. -/
theorem Memory.ofBytesFrom_wfFrom (n : Nat) (bytes : List Byte) :
    Memory.wfFrom n (Memory.ofBytesFrom n bytes) = true := by
  induction bytes generalizing n with
  | nil => rfl
  | cons b rest ih => exact Memory.cons_wfFrom n b _ n (Nat.le_refl n) (ih (n + 1))

/-- The memory of a byte sequence lists offsets of the sequence only. -/
theorem Memory.mem_ofBytesFrom (n : Nat) (bytes : List Byte) (cell : Host.Cell)
    (h : cell ∈ Memory.ofBytesFrom n bytes) : cell.1 < n + bytes.length := by
  induction bytes generalizing n with
  | nil => simp [Memory.ofBytesFrom] at h
  | cons b rest ih =>
    simp only [List.length_cons]
    simp only [Memory.ofBytesFrom, Memory.cons] at h
    split at h
    · have := ih (n + 1) h; omega
    · rcases List.mem_cons.mp h with e | e
      · subst e; simp
      · have := ih (n + 1) e; omega

/-- The memory of a byte sequence reads as the sequence. -/
theorem Memory.read_ofBytesFrom (n : Nat) (bytes : List Byte) (i : Nat) (h : i < bytes.length) :
    Memory.read (Memory.ofBytesFrom n bytes) (n + i) = bytes[i] := by
  induction bytes generalizing n i with
  | nil => simp at h
  | cons b rest ih =>
    simp only [Memory.ofBytesFrom]
    rw [Memory.read_cons n b _ _ (Memory.ofBytesFrom_wfFrom (n + 1) rest)]
    cases i with
    | zero => simp
    | succ j =>
      rw [if_neg (by omega), show n + (j + 1) = n + 1 + j by omega, ih (n + 1) j (by simpa using h)]
      simp

/-- The memory of a sequence in two parts. -/
theorem Memory.ofBytesFrom_append (n : Nat) (a b : List Byte) :
    Memory.ofBytesFrom n (a ++ b) = Memory.ofBytesFrom n a ++ Memory.ofBytesFrom (n + a.length) b := by
  induction a generalizing n with
  | nil => simp [Memory.ofBytesFrom]
  | cons x a ih =>
    simp only [List.cons_append, Memory.ofBytesFrom, ih, Memory.cons, List.length_cons]
    rw [show n + 1 + a.length = n + (a.length + 1) by omega]
    split <;> simp

/-- Bytes that read as unlisted ones are not listed. -/
theorem Memory.ofBytesFrom_replicate (n k : Nat) :
    Memory.ofBytesFrom n (List.replicate k Memory.unlisted) = [] := by
  induction k generalizing n with
  | zero => rfl
  | succ k ih => simp [List.replicate_succ, Memory.ofBytesFrom, ih, Memory.cons]

/-- An image's read after a write of it. -/
theorem Image.read_write (m : Image) (off : Nat) (v : Byte) (a : Nat) (h : m.wf = true) :
    (m.write off v).read a = if a = off then v else m.read a := by
  simp only [Image.wf, Bool.and_eq_true] at h
  exact Memory.read_write m.cells off v a 0 h.1

/-- A write below `CAPACITY` keeps the image canonical. -/
theorem Image.write_wf (m : Image) (off : Nat) (v : Byte) (h : m.wf = true) (hoff : off < m.capacity) :
    (m.write off v).wf = true := by
  simp only [Image.wf, Bool.and_eq_true, List.all_eq_true, decide_eq_true_eq] at h ⊢
  refine ⟨Memory.write_wfFrom m.cells off v 0 (Nat.zero_le _) h.1, fun cell hc => ?_⟩
  rcases Memory.mem_write m.cells off v cell hc with e | e
  · exact h.2 cell e
  · subst e; exact hoff

/-- The image of a byte sequence is canonical. -/
theorem Image.ofBytes_wf (bytes : List Byte) : (Image.ofBytes bytes).wf = true := by
  simp only [Image.wf, Image.ofBytes, Bool.and_eq_true, List.all_eq_true]
  refine ⟨Memory.ofBytesFrom_wfFrom 0 bytes, fun cell hc => decide_eq_true ?_⟩
  have := Memory.mem_ofBytesFrom 0 bytes cell hc
  omega

/-- The image of a byte sequence reads as the sequence (R22, R33). -/
theorem Image.read_ofBytes (bytes : List Byte) (i : Nat) (h : i < bytes.length) :
    (Image.ofBytes bytes).read i = bytes[i] := by
  have := Memory.read_ofBytesFrom 0 bytes i h
  simpa [Image.read, Image.ofBytes] using this

end Sys2Proof.Machine
end

