-- ==== Sys2Proof/Laws/Ops.lean ====
section
/-! SUPPORT. The shared operations: what each answers where its condition holds, and, said once, everything each can do
when it answers a next state. -/

namespace Sys2Proof.Machine

/-- `satSub` does not saturate at or above the amount (R113). -/
theorem satSub_toNat (a : Addr) (k : Nat) (h : k ≤ a.toNat) :
    (AddressValue.satSub a k).toNat = a.toNat - k := by
  have := a.isLt
  simp only [AddressValue.satSub, BitVec.toNat_ofNat]
  omega

theorem capOk_iff (img : Image) (a : Addr) : capOk img a = true ↔ a.toNat < img.capacity := by
  simp [capOk, AddressValue.ltRaw]

theorem rombBits_lt (r : Mbc1Regs) : rombBits r < 32 := by
  have h : (r.romb &&& 0x1F#8).toNat ≤ 0x1F := by rw [BitVec.toNat_and]; exact Nat.and_le_right
  simp only [rombBits]; omega

theorem rambBits_lt (r : Mbc1Regs) : rambBits r < 4 := by
  have h : (r.ramb &&& Config.rambMask).toNat ≤ 3 := by rw [BitVec.toNat_and]; exact Nat.and_le_right
  simp only [rambBits]; omega

/-- The two bit ranges of the mode-0 index do not overlap, so the bitwise or is a sum (R55, D4). -/
theorem romIdx_eq (r : Mbc1Regs) :
    romIdx r = (if r.mode = 0x00#8 then rambBits r * 32 else 0) + rombBits r := by
  have h := rombBits_lt r
  simp only [romIdx, romMode, Config.romhiShift, decide_eq_true_eq]
  split
  · rw [← Nat.shiftLeft_add_eq_or_of_lt (i := 5) (by simpa using h), Nat.shiftLeft_eq]
  · simp

/-- The switchable window's offset in numbers. -/
theorem romxOff_eq (r : Mbc1Regs) (a : Addr) (h : 0x4000 ≤ a.toNat) :
    romxOff r a = romIdx r * 0x4000 + (a.toNat - 0x4000) := by
  rw [romxOff, satSub_toNat a 0x4000 h]

/-- The RAM window's offset in numbers. -/
theorem ramOff_eq (r : Mbc1Regs) (a : Addr) (h : 0xA000 ≤ a.toNat) :
    ramOff r a = if r.mode = 0x00#8 then a.toNat else rambBits r * 0x2000 + (a.toNat - 0xA000) := by
  rw [ramOff, satSub_toNat a 0xA000 h]
  simp [romMode]

/-- On an MBC1 cartridge an MBC1 operation runs. -/
theorem onMbc1_eq (s : State) (c : Cartridge) (r : Mbc1Regs) (h : s.HasMbc1 c r)
    (body : Cartridge → Mbc1Regs → Host.Outcome State Fault Refusal) : onMbc1 s body = body c r := by
  simp only [onMbc1, h.1, h.2]

/-- An MBC1 operation answers a next state only on an MBC1 cartridge, from its body. -/
theorem onMbc1_next (s t : State) (body : Cartridge → Mbc1Regs → Host.Outcome State Fault Refusal)
    (h : onMbc1 s body = .next t) : ∃ c r, s.HasMbc1 c r ∧ body c r = .next t := by
  unfold onMbc1 at h
  split at h
  · simp at h
  · next c hc =>
    split at h
    · next r hr => exact ⟨c, r, ⟨hc, hr⟩, h⟩
    · simp at h

/-- On a NOBANK cartridge a NOBANK operation runs. -/
theorem onNobank_eq (s : State) (c : Cartridge) (h : s.HasNobank c)
    (body : Cartridge → Host.Outcome State Fault Refusal) : onNobank s body = body c := by
  simp only [onNobank, h.1, h.2]

/-- A NOBANK operation answers a next state only on a NOBANK cartridge, from its body. -/
theorem onNobank_next (s t : State) (body : Cartridge → Host.Outcome State Fault Refusal)
    (h : onNobank s body = .next t) : ∃ c, s.HasNobank c ∧ body c = .next t := by
  unfold onNobank at h
  split at h
  · simp at h
  · next c hc =>
    split at h
    · next hr => exact ⟨c, ⟨hc, hr⟩, h⟩
    · simp at h

/-- With an accepted header the selector runs. -/
theorem onAccepted_eq (s : State) (l : Loading) (h : s.loading = some l)
    (body : Loading → Host.Outcome State Fault Refusal) : onAccepted s body = body l := by
  simp only [onAccepted, h]

/-- The selector answers a next state only on an accepted header, from its body. -/
theorem onAccepted_next (s t : State) (body : Loading → Host.Outcome State Fault Refusal)
    (h : onAccepted s body = .next t) : ∃ l, s.loading = some l ∧ body l = .next t := by
  unfold onAccepted at h
  split at h
  · next l hl => exact ⟨l, hl, h⟩
  · simp at h

/-- The states that differ from `s` in the reply only. -/
theorem answer_next (k : Reply) (s t : State) (h : answer k s = .next t) : t = s.setReply (some k) := by
  simpa [answer] using h.symm

theorem raise_next (k : ErrorKind) (s t : State) (h : raise k s = .next t) : t = s.setReply (some (.err k)) :=
  answer_next (.err k) s t h

/-- A guarded operation answers its own next state or raises `AddressError`. -/
theorem guarded_next (c : Cartridge) (a : Addr) (s t : State) (body : Host.Outcome State Fault Refusal)
    (h : guarded c a s body = .next t) :
    (a.toNat < c.image.capacity ∧ body = .next t) ∨
      (c.image.capacity ≤ a.toNat ∧ t = s.setReply (some (.err .addressError))) := by
  unfold guarded at h
  split at h
  · next hc => exact .inl ⟨(capOk_iff _ _).mp hc, h⟩
  · next hc => exact .inr ⟨by simpa [capOk_iff] using hc, raise_next _ _ _ h⟩

/-- A gated operation answers its own next state or raises `RamDisabledError`. -/
theorem gated_next (r : Mbc1Regs) (s t : State) (body : Host.Outcome State Fault Refusal)
    (h : gated r s body = .next t) :
    (ramOn r = true ∧ body = .next t) ∨ (ramOn r = false ∧ t = s.setReply (some (.err .ramDisabledError))) := by
  unfold gated at h
  split at h
  · next hg => exact .inl ⟨hg, h⟩
  · next hg => exact .inr ⟨by simpa using hg, raise_next _ _ _ h⟩

/-- A read of the image changes the reply only. -/
theorem readImage_next (c : Cartridge) (off : Nat) (s t : State) (h : readImage c off s = .next t) :
    (off < c.image.capacity ∧ t = s.setReply (some (.data (c.image.read off)))) ∨
      (c.image.capacity ≤ off ∧ t = s.setReply (some (.err .addressError))) := by
  unfold readImage at h
  split at h
  · next ho => exact .inl ⟨ho, answer_next _ _ _ h⟩
  · next ho => exact .inr ⟨by omega, raise_next _ _ _ h⟩

/-- A write of the image changes one byte of it and the reply, or the reply only. -/
theorem writeImage_next (c : Cartridge) (off : Nat) (v : Byte) (s t : State) (h : writeImage c off v s = .next t) :
    (off < c.image.capacity ∧ t = (s.setCart (some (c.setImage (c.image.write off v)))).setReply (some .ok)) ∨
      (c.image.capacity ≤ off ∧ t = s.setReply (some (.err .addressError))) := by
  unfold writeImage at h
  split at h
  · next ho => exact .inl ⟨ho, answer_next _ _ _ h⟩
  · next ho => exact .inr ⟨by omega, raise_next _ _ _ h⟩

/-- A register write changes the registers and the reply. -/
theorem writeRegs_next (c : Cartridge) (r : Mbc1Regs) (s t : State) (h : writeRegs c r s = .next t) :
    t = (s.setCart (some (c.setRegs r))).setReply (some .ok) := answer_next _ _ _ h

/-- A build turns the accepted header and its image into the cartridge. -/
theorem build_next (ctrl : Controller) (s t : State) (h : build ctrl s = .next t) :
    ∃ l, s.loading = some l ∧
      t = ((s.setCart (some { image := l.image, hdr := l.hdr, ctrl := ctrl })).setLoading none).setReply (some .ok) := by
  obtain ⟨l, hl, hb⟩ := onAccepted_next s t _ h
  exact ⟨l, hl, answer_next _ _ _ hb⟩

/-- A rejection drops the accepted header. -/
theorem reject_next (s t : State) (h : reject s = .next t) :
    ∃ l, s.loading = some l ∧ t = (s.setLoading none).setReply (some (.err .unsupportedCartridgeError)) := by
  obtain ⟨l, hl, hb⟩ := onAccepted_next s t _ h
  exact ⟨l, hl, raise_next _ _ _ hb⟩

/-- What `PARSE` accepts has 80 bytes and the right checksum, and the snapshot is those bytes (R121, R123). -/
theorem parse_ok (bytes : List Byte) (h : Header) (hp : parse bytes = .ok h) :
    bytes.length = 80 ∧ h.toList = bytes ∧ h.Valid := by
  unfold parse at hp
  split at hp
  · next len =>
    simp only at hp
    split at hp
    · next hc => cases hp; exact ⟨len, by simp, hc⟩
    · cases hp
  · cases hp

/-- The errors of `PARSE` (R121, R123). -/
theorem parse_error (bytes : List Byte) (k : ErrorKind) (hp : parse bytes = .error k) :
    (bytes.length ≠ 80 ∧ k = .formatError) ∨ (bytes.length = 80 ∧ k = .checksumError) := by
  unfold parse at hp
  split at hp
  · next len =>
    simp only at hp
    split at hp
    · cases hp
    · cases hp; exact .inr ⟨len, rfl⟩
  · next len => cases hp; exact .inl ⟨len, rfl⟩

/-- LOAD's first half always answers: an error and no cartridge, or an accepted header. -/
theorem beginLoad_cases (src : Source) (s : State) :
    (src.deliver = none ∧ beginLoad src s = raise .ioError ((s.setCart none).setLoading none)) ∨
      ∃ bytes, src.deliver = some bytes ∧
        ((∃ k, parse (headerSlice bytes) = .error k ∧
            beginLoad src s = raise k ((s.setCart none).setLoading none)) ∨
          ∃ h, parse (headerSlice bytes) = .ok h ∧
            beginLoad src s = .next (((s.setCart none).setLoading
              (some { image := Image.ofBytes bytes, hdr := h })).setReply none)) := by
  unfold beginLoad
  cases hd : src.deliver with
  | none => exact .inl ⟨rfl, rfl⟩
  | some bytes =>
    refine .inr ⟨bytes, rfl, ?_⟩
    cases hp : parse (headerSlice bytes) with
    | error k => exact .inl ⟨k, rfl, by simp only [hp]⟩
    | ok h => exact .inr ⟨h, rfl, by simp only [hp]⟩

end Sys2Proof.Machine
end

