-- ==== Sys2Proof/Laws/Header.lean ====
section
/-! SUPPORT. The laws of the header: `PARSE` of 80 bytes, and how the checksum region changes with one byte. -/

namespace Sys2Proof.Machine

theorem Header.mk_toList (h : Header) (hlen : h.toList.toArray.size = 80) : (⟨h.toList.toArray, hlen⟩ : Header) = h :=
  Vector.toList_inj.mp (by simp)

/-- `PARSE` of exactly 80 bytes (R123). -/
theorem parse_toList (h : Header) :
    parse h.toList = if h.cks = h.headerChecksum then .ok h else .error .checksumError := by
  simp only [parse, Vector.length_toList, dif_pos, Header.mk_toList]

theorem Header.region_length (h : Header) : h.region.length = 25 := by simp [Header.region]

/-- The region's bytes are those at header offsets 0x34 and up (R120). -/
theorem Header.region_getElem (h : Header) (j : Nat) (hj : j < h.region.length) :
    h.region[j] = h[0x34 + j]'(by rw [Header.region_length] at hj; omega) := by simp [Header.region]

/-- A byte set below the region leaves it as it was. -/
theorem Header.region_set_below (h : Header) (b : Byte) (i : Nat) (hi : i < 80) (hlt : i < 0x34) :
    Header.region (h.set i b) = h.region := by
  unfold Header.region
  rw [Vector.toList_set, List.drop_set, if_pos (by omega)]

/-- A byte set at or above its beginning is set in the region (and does nothing to it beyond its end). -/
theorem Header.region_set (h : Header) (b : Byte) (i : Nat) (hi : i < 80) (hle : 0x34 ≤ i) :
    Header.region (h.set i b) = h.region.set (i - 0x34) b := by
  unfold Header.region
  rw [Vector.toList_set, List.drop_set, if_neg (by omega), List.take_set]

/-- The 80 bytes a header is, cut out of an image that holds them at `HEADER_BASE` (R130). -/
theorem headerSlice_eq (bytes : List Byte) (h : Header)
    (hh : ∀ (i : Fin 80), bytes[Config.headerBase + i.val]? = some h[i]) : headerSlice bytes = h.toList := by
  apply List.ext_getElem?
  intro i
  by_cases hi : i < 80
  · have := hh ⟨i, hi⟩
    simp [headerSlice, hi, this]
  · rw [List.getElem?_eq_none (by simp [headerSlice]; omega), List.getElem?_eq_none (by simp; omega)]

end Sys2Proof.Machine
end

