-- ==== Sys2Proof/Laws/PerInstr.lean ====
section
/-! SUPPORT. The family RowMatch: the encoder's word of a well-formed bus operation is one its row's match and mask
select (R87); a well-formed type byte is named by the table unless it is CT.UNKNOWN's (R88). -/

namespace Sys2Proof.Laws

/-- The word that the encoder gives selects the row that the table has under the instruction's mnemonic. -/
def RowMatch.Statement (i : Instr) : Prop :=
  i.wf = true →
    match encode i with
    | .bus t => ∃ v, i.variant? = some v ∧ ∃ row ∈ busRows v, row.mnemonic = i.mnemonic ∧ row.selects t = true
    | .ct t => (namedTypes.contains t = true ↔ i.mnemonic ≠ "CT.UNKNOWN")

/-- A packed word lies in the row whose mask has ones from bit `k` up, by its number. -/
theorem selects_busWord (row : Row) (k : Nat) (w : Bool) (a : Addr) (d : Byte)
    (hm : row.mask = BitVec.allOnes 25 <<< k)
    (h : (w.toNat * 0x1000000 + a.toNat * 0x100 + d.toNat) / 2 ^ k * 2 ^ k = row.bits.toNat) :
    row.selects (busWord w a d) = true := by
  rw [Row.selects, decide_eq_true_eq, and_highMask_iff _ _ _ k hm, busWord_toNat]
  exact h

theorem RowMatch.rdRom0 (a : Addr) : RowMatch.Statement (.rdRom0 a) := by
  intro hwf
  have ha := a.isLt
  have hr := (inRange_iff _ _ _).mp hwf
  simp at hr
  refine ⟨.mbc1, rfl, ⟨"RD.ROM0", 0x1C00000#25, 0x0000000#25⟩, by simp [busRows], rfl, ?_⟩
  exact selects_busWord _ 22 false a 0x00#8 (by decide) (by simp; omega)

theorem RowMatch.rdRomx (a : Addr) : RowMatch.Statement (.rdRomx a) := by
  intro hwf
  have ha := a.isLt
  have hr := (inRange_iff _ _ _).mp hwf
  simp at hr
  refine ⟨.mbc1, rfl, ⟨"RD.ROMX", 0x1C00000#25, 0x0400000#25⟩, by simp [busRows], rfl, ?_⟩
  exact selects_busWord _ 22 false a 0x00#8 (by decide) (by simp; omega)

theorem RowMatch.rdUnmapped8 (a : Addr) : RowMatch.Statement (.rdUnmapped8 a) := by
  intro hwf
  have ha := a.isLt
  have hr := (inRange_iff _ _ _).mp hwf
  simp at hr
  refine ⟨.mbc1, rfl, ⟨"RD.UNMAPPED.8", 0x1E00000#25, 0x0800000#25⟩, by simp [busRows], rfl, ?_⟩
  exact selects_busWord _ 21 false a 0x00#8 (by decide) (by simp; omega)

theorem RowMatch.rdRam (a : Addr) : RowMatch.Statement (.rdRam a) := by
  intro hwf
  have ha := a.isLt
  have hr := (inRange_iff _ _ _).mp hwf
  simp at hr
  refine ⟨.mbc1, rfl, ⟨"RD.RAM", 0x1E00000#25, 0x0A00000#25⟩, by simp [busRows], rfl, ?_⟩
  exact selects_busWord _ 21 false a 0x00#8 (by decide) (by simp; omega)

theorem RowMatch.rdUnmappedC (a : Addr) : RowMatch.Statement (.rdUnmappedC a) := by
  intro hwf
  have ha := a.isLt
  have hr := (inRange_iff _ _ _).mp hwf
  simp at hr
  refine ⟨.mbc1, rfl, ⟨"RD.UNMAPPED.C", 0x1C00000#25, 0x0C00000#25⟩, by simp [busRows], rfl, ?_⟩
  exact selects_busWord _ 22 false a 0x00#8 (by decide) (by simp; omega)

theorem RowMatch.wrRamen (a : Addr) (d : Byte) : RowMatch.Statement (.wrRamen a d) := by
  intro hwf
  have ha := a.isLt
  have hd := d.isLt
  have hr := (inRange_iff _ _ _).mp hwf
  simp at hr
  refine ⟨.mbc1, rfl, ⟨"WR.RAMEN", 0x1E00000#25, 0x1000000#25⟩, by simp [busRows], rfl, ?_⟩
  exact selects_busWord _ 21 true a d (by decide) (by simp; omega)

theorem RowMatch.wrRomb (a : Addr) (d : Byte) : RowMatch.Statement (.wrRomb a d) := by
  intro hwf
  have ha := a.isLt
  have hd := d.isLt
  have hr := (inRange_iff _ _ _).mp hwf
  simp at hr
  refine ⟨.mbc1, rfl, ⟨"WR.ROMB", 0x1E00000#25, 0x1200000#25⟩, by simp [busRows], rfl, ?_⟩
  exact selects_busWord _ 21 true a d (by decide) (by simp; omega)

theorem RowMatch.wrRamb (a : Addr) (d : Byte) : RowMatch.Statement (.wrRamb a d) := by
  intro hwf
  have ha := a.isLt
  have hd := d.isLt
  have hr := (inRange_iff _ _ _).mp hwf
  simp at hr
  refine ⟨.mbc1, rfl, ⟨"WR.RAMB", 0x1E00000#25, 0x1400000#25⟩, by simp [busRows], rfl, ?_⟩
  exact selects_busWord _ 21 true a d (by decide) (by simp; omega)

theorem RowMatch.wrMode (a : Addr) (d : Byte) : RowMatch.Statement (.wrMode a d) := by
  intro hwf
  have ha := a.isLt
  have hd := d.isLt
  have hr := (inRange_iff _ _ _).mp hwf
  simp at hr
  refine ⟨.mbc1, rfl, ⟨"WR.MODE", 0x1E00000#25, 0x1600000#25⟩, by simp [busRows], rfl, ?_⟩
  exact selects_busWord _ 21 true a d (by decide) (by simp; omega)

theorem RowMatch.wrUnmapped8 (a : Addr) (d : Byte) : RowMatch.Statement (.wrUnmapped8 a d) := by
  intro hwf
  have ha := a.isLt
  have hd := d.isLt
  have hr := (inRange_iff _ _ _).mp hwf
  simp at hr
  refine ⟨.mbc1, rfl, ⟨"WR.UNMAPPED.8", 0x1E00000#25, 0x1800000#25⟩, by simp [busRows], rfl, ?_⟩
  exact selects_busWord _ 21 true a d (by decide) (by simp; omega)

theorem RowMatch.wrRam (a : Addr) (d : Byte) : RowMatch.Statement (.wrRam a d) := by
  intro hwf
  have ha := a.isLt
  have hd := d.isLt
  have hr := (inRange_iff _ _ _).mp hwf
  simp at hr
  refine ⟨.mbc1, rfl, ⟨"WR.RAM", 0x1E00000#25, 0x1A00000#25⟩, by simp [busRows], rfl, ?_⟩
  exact selects_busWord _ 21 true a d (by decide) (by simp; omega)

theorem RowMatch.wrUnmappedC (a : Addr) (d : Byte) : RowMatch.Statement (.wrUnmappedC a d) := by
  intro hwf
  have ha := a.isLt
  have hd := d.isLt
  have hr := (inRange_iff _ _ _).mp hwf
  simp at hr
  refine ⟨.mbc1, rfl, ⟨"WR.UNMAPPED.C", 0x1C00000#25, 0x1C00000#25⟩, by simp [busRows], rfl, ?_⟩
  exact selects_busWord _ 22 true a d (by decide) (by simp; omega)

theorem RowMatch.nbRdRom (a : Addr) : RowMatch.Statement (.nbRdRom a) := by
  intro hwf
  have ha := a.isLt
  have hr := (inRange_iff _ _ _).mp hwf
  simp at hr
  refine ⟨.nobank, rfl, ⟨"NB.RD.ROM", 0x1800000#25, 0x0000000#25⟩, by simp [busRows], rfl, ?_⟩
  exact selects_busWord _ 23 false a 0x00#8 (by decide) (by simp; omega)

theorem RowMatch.nbRdUnmapped (a : Addr) : RowMatch.Statement (.nbRdUnmapped a) := by
  intro hwf
  have ha := a.isLt
  have hr := (inRange_iff _ _ _).mp hwf
  simp at hr
  refine ⟨.nobank, rfl, ⟨"NB.RD.UNMAPPED", 0x1800000#25, 0x0800000#25⟩, by simp [busRows], rfl, ?_⟩
  exact selects_busWord _ 23 false a 0x00#8 (by decide) (by simp; omega)

theorem RowMatch.nbWr (a : Addr) (d : Byte) : RowMatch.Statement (.nbWr a d) := by
  intro hwf
  have ha := a.isLt
  have hd := d.isLt
  refine ⟨.nobank, rfl, ⟨"NB.WR", 0x1000000#25, 0x1000000#25⟩, by simp [busRows], rfl, ?_⟩
  exact selects_busWord _ 24 true a d (by decide) (by simp; omega)

theorem RowMatch.ctNobank : RowMatch.Statement .ctNobank := fun _ => by simp only [encode]; decide

theorem RowMatch.ctMbc1T01 : RowMatch.Statement .ctMbc1T01 := fun _ => by simp only [encode]; decide

theorem RowMatch.ctMbc1T02 : RowMatch.Statement .ctMbc1T02 := fun _ => by simp only [encode]; decide

theorem RowMatch.ctMbc1T03 : RowMatch.Statement .ctMbc1T03 := fun _ => by simp only [encode]; decide

theorem RowMatch.ctMbc2T05 : RowMatch.Statement .ctMbc2T05 := fun _ => by simp only [encode]; decide

theorem RowMatch.ctMbc2T06 : RowMatch.Statement .ctMbc2T06 := fun _ => by simp only [encode]; decide

theorem RowMatch.ctMbc3T0F : RowMatch.Statement .ctMbc3T0F := fun _ => by simp only [encode]; decide

theorem RowMatch.ctMbc3T10 : RowMatch.Statement .ctMbc3T10 := fun _ => by simp only [encode]; decide

theorem RowMatch.ctMbc3T11 : RowMatch.Statement .ctMbc3T11 := fun _ => by simp only [encode]; decide

theorem RowMatch.ctMbc3T12 : RowMatch.Statement .ctMbc3T12 := fun _ => by simp only [encode]; decide

theorem RowMatch.ctMbc3T13 : RowMatch.Statement .ctMbc3T13 := fun _ => by simp only [encode]; decide

theorem RowMatch.ctMbc4T15 : RowMatch.Statement .ctMbc4T15 := fun _ => by simp only [encode]; decide

theorem RowMatch.ctMbc4T16 : RowMatch.Statement .ctMbc4T16 := fun _ => by simp only [encode]; decide

theorem RowMatch.ctMbc4T17 : RowMatch.Statement .ctMbc4T17 := fun _ => by simp only [encode]; decide

theorem RowMatch.ctMbc5T19 : RowMatch.Statement .ctMbc5T19 := fun _ => by simp only [encode]; decide

theorem RowMatch.ctMbc5T1A : RowMatch.Statement .ctMbc5T1A := fun _ => by simp only [encode]; decide

theorem RowMatch.ctMbc5T1B : RowMatch.Statement .ctMbc5T1B := fun _ => by simp only [encode]; decide

theorem RowMatch.ctMbc5T1C : RowMatch.Statement .ctMbc5T1C := fun _ => by simp only [encode]; decide

theorem RowMatch.ctMbc5T1D : RowMatch.Statement .ctMbc5T1D := fun _ => by simp only [encode]; decide

theorem RowMatch.ctMbc5T1E : RowMatch.Statement .ctMbc5T1E := fun _ => by simp only [encode]; decide

theorem RowMatch.ctHuc1 : RowMatch.Statement .ctHuc1 := fun _ => by simp only [encode]; decide

theorem RowMatch.ctUnknown (t : Byte) : RowMatch.Statement (.ctUnknown t) := by
  intro hwf
  simpa [encode, Instr.mnemonic, Instr.wf] using hwf

end Sys2Proof.Laws
end

