-- ==== Sys2Proof/Laws/Step.lean ====
section
/-! SUPPORT. What one step can do, said once: which request it serves, and what a transaction can change. -/

namespace Sys2Proof.Machine

/-- An accepted header's type byte goes to the selector, whatever is queued (R211). -/
theorem step_selector (s : State) (l : Loading) (h : s.loading = some l) :
    step s = exec (decodeCt l.hdr.typeByte) s := by
  simp only [step, fetch, h, decode]

/-- With nothing under way and nothing requested nothing happens (R7). -/
theorem step_idle (s : State) (hl : s.loading = none) (hq : s.queue = []) : step s = .next s := by
  simp only [step, fetch, hl, hq]

/-- A LOAD at the head of the queue begins. -/
theorem step_load (s : State) (src : Source) (rest : List Request) (hl : s.loading = none)
    (hq : s.queue = .load src :: rest) : step s = beginLoad src (s.setQueue rest) := by
  simp only [step, fetch, hl, hq]

/-- A transaction at the head of the queue runs the operation it selects. -/
theorem step_bus (s : State) (c : Cartridge) (t : BusWord) (rest : List Request) (h : s.NextIs t rest)
    (hc : s.cart = some c) : step s = exec (decodeBus c.variant t) (s.setQueue rest) := by
  simp only [step, fetch, h.1, h.2, hc, decode]

/-- A transaction has no answer where no cartridge exists (R211). -/
theorem step_noCartridge (s : State) (t : BusWord) (rest : List Request) (h : s.NextIs t rest) (hc : s.cart = none) :
    step s = .fault .noCartridge := by
  simp only [step, fetch, h.1, h.2, hc]

/-- The host's run after a next state, a fault and a refusal. -/
theorem core_run_next (M : Host.Core) (n : Nat) (s t : M.State) (h : M.step s = .next t) :
    M.run (n + 1) s = M.run n t := by rw [Host.Core.run, h]

theorem core_run_fault (M : Host.Core) (n : Nat) (s : M.State) (r : M.Fault) (h : M.step s = .fault r) :
    M.run (n + 1) s = .fault r := by rw [Host.Core.run, h]

theorem core_run_refused (M : Host.Core) (n : Nat) (s : M.State) (r : M.Refusal) (h : M.step s = .refused r) :
    M.run (n + 1) s = .refused r := by rw [Host.Core.run, h]

/-- `run` is the host's run of this machine. -/
theorem run_eq_core (n : Nat) (s : State) : Host.Core.run Sys2Proof.core n s = run n s := by
  induction n generalizing s with
  | zero => rfl
  | succ n ih =>
    cases hs : step s with
    | next t => exact (core_run_next Sys2Proof.core n s t hs).trans ((ih t).trans (by rw [run, hs]))
    | fault r => exact (core_run_fault Sys2Proof.core n s r hs).trans (by rw [run, hs]; rfl)
    | refused r => exact (core_run_refused Sys2Proof.core n s r hs).trans (by rw [run, hs]; rfl)

/-- A run goes on from the next state of its first step. -/
theorem run_succ (n : Nat) (s t : State) (h : step s = .next t) : run (n + 1) s = run n t := by
  simp only [run, h]

theorem run_one (s : State) : run 1 s = step s := by
  simp only [run]
  cases step s <;> rfl

/-- The four things a step can be about. -/
theorem state_cases (s : State) :
    (∃ l, s.loading = some l) ∨ (s.loading = none ∧ s.queue = []) ∨
      (s.loading = none ∧ ∃ src rest, s.queue = .load src :: rest) ∨ ∃ t rest, s.NextIs t rest := by
  cases hl : s.loading with
  | some l => exact .inl ⟨l, rfl⟩
  | none =>
    cases hq : s.queue with
    | nil => exact .inr (.inl ⟨rfl, rfl⟩)
    | cons r rest =>
      cases r with
      | load src => exact .inr (.inr (.inl ⟨rfl, src, rest, rfl⟩))
      | bus t => exact .inr (.inr (.inr ⟨t, rest, hl, hq⟩))

/-- What the selector does with a type byte, by the variant the byte gives (R88, R170). -/
theorem selector_cases (t : Byte) (s : State) :
    (variantOfType t = some .nobank ∧ exec (decodeCt t) s = build .nobank s) ∨
      (variantOfType t = some .mbc1 ∧ exec (decodeCt t) s = build (.mbc1 Mbc1Regs.afterLoad) s) ∨
      (variantOfType t = none ∧ exec (decodeCt t) s = reject s) := by
  by_cases h0 : t = 0x00#8
  · subst h0; exact .inl ⟨rfl, rfl⟩
  by_cases h1 : t = 0x01#8
  · subst h1; exact .inr (.inl ⟨rfl, rfl⟩)
  by_cases h2 : t = 0x02#8
  · subst h2; exact .inr (.inl ⟨rfl, rfl⟩)
  by_cases h3 : t = 0x03#8
  · subst h3; exact .inr (.inl ⟨rfl, rfl⟩)
  refine .inr (.inr ⟨by simp [variantOfType, h0, h1, h2, h3], ?_⟩)
  unfold decodeCt
  split <;> first
    | rfl
    | next hh => first
      | exact absurd (BitVec.eq_of_toNat_eq hh) h0
      | exact absurd (BitVec.eq_of_toNat_eq hh) h1
      | exact absurd (BitVec.eq_of_toNat_eq hh) h2
      | exact absurd (BitVec.eq_of_toNat_eq hh) h3

/-- The ways a transaction can leave its cartridge: as it was, with other registers, or with one image byte set. -/
def CartStep (c c' : Cartridge) : Prop :=
  c' = c ∨
    (∃ r r', c.ctrl = .mbc1 r ∧ (r.romb ≠ 0x00#8 → r'.romb ≠ 0x00#8) ∧ c' = c.setRegs r') ∨
    ∃ off d, off < c.image.capacity ∧ c' = c.setImage (c.image.write off d)

/-- What a transaction leaves: nothing but the cartridge and the reply can change. -/
def BusStep (s t : State) : Prop :=
  t.loading = s.loading ∧ t.queue = s.queue ∧ ∃ c c', s.cart = some c ∧ t.cart = some c' ∧ CartStep c c'

theorem BusStep.of_reply (s : State) (c : Cartridge) (k : Option Reply) (h : s.cart = some c) :
    BusStep s (s.setReply k) := ⟨rfl, rfl, c, c, h, h, .inl rfl⟩

theorem BusStep.of_regs (s : State) (c : Cartridge) (r r' : Mbc1Regs) (k : Option Reply) (h : s.HasMbc1 c r)
    (hr : r.romb ≠ 0x00#8 → r'.romb ≠ 0x00#8) : BusStep s ((s.setCart (some (c.setRegs r'))).setReply k) :=
  ⟨rfl, rfl, c, c.setRegs r', h.1, rfl, .inr (.inl ⟨r, r', h.2, hr, rfl⟩)⟩

theorem coerceRomb_ne (d : Byte) : coerceRomb d ≠ 0x00#8 := by
  unfold coerceRomb
  split
  · decide
  · assumption

theorem onMbc1_busStep (s t : State) (body : Cartridge → Mbc1Regs → Host.Outcome State Fault Refusal)
    (h : onMbc1 s body = .next t) (hb : ∀ c r, s.HasMbc1 c r → body c r = .next t → BusStep s t) : BusStep s t := by
  obtain ⟨c, r, hc, hn⟩ := onMbc1_next s t body h
  exact hb c r hc hn

theorem guarded_busStep (c : Cartridge) (a : Addr) (s t : State) (body : Host.Outcome State Fault Refusal)
    (hc : s.cart = some c) (h : guarded c a s body = .next t) (hb : body = .next t → BusStep s t) : BusStep s t := by
  rcases guarded_next c a s t body h with ⟨_, hn⟩ | ⟨_, rfl⟩
  · exact hb hn
  · exact .of_reply s c _ hc

theorem gated_busStep (c : Cartridge) (r : Mbc1Regs) (s t : State) (body : Host.Outcome State Fault Refusal)
    (hc : s.cart = some c) (h : gated r s body = .next t) (hb : body = .next t → BusStep s t) : BusStep s t := by
  rcases gated_next r s t body h with ⟨_, hn⟩ | ⟨_, rfl⟩
  · exact hb hn
  · exact .of_reply s c _ hc

theorem readImage_busStep (c : Cartridge) (off : Nat) (s t : State) (hc : s.cart = some c)
    (h : readImage c off s = .next t) : BusStep s t := by
  rcases readImage_next c off s t h with ⟨_, rfl⟩ | ⟨_, rfl⟩ <;> exact .of_reply s c _ hc

theorem writeImage_busStep (c : Cartridge) (off : Nat) (v : Byte) (s t : State) (hc : s.cart = some c)
    (h : writeImage c off v s = .next t) : BusStep s t := by
  rcases writeImage_next c off v s t h with ⟨ho, rfl⟩ | ⟨_, rfl⟩
  · exact ⟨rfl, rfl, c, _, hc, rfl, .inr (.inr ⟨off, v, ho, rfl⟩)⟩
  · exact .of_reply s c _ hc

theorem raise_busStep (k : ErrorKind) (c : Cartridge) (s t : State) (hc : s.cart = some c)
    (h : raise k s = .next t) : BusStep s t := by
  rw [raise_next k s t h]; exact .of_reply s c _ hc

/-- Everything a bus operation can do when it answers a next state. -/
theorem exec_busStep (i : Instr) (v : Variant) (s t : State) (hv : i.variant? = some v) (h : exec i s = .next t) :
    BusStep s t := by
  cases i
  case rdRom0 a | rdRomx a =>
    refine onMbc1_busStep s t _ h fun c r hc hn => guarded_busStep c _ s t _ hc.1 hn fun hn => ?_
    exact readImage_busStep c _ s t hc.1 hn
  case rdRam a =>
    refine onMbc1_busStep s t _ h fun c r hc hn => guarded_busStep c _ s t _ hc.1 hn fun hn => ?_
    exact gated_busStep c r s t _ hc.1 hn fun hn => readImage_busStep c _ s t hc.1 hn
  case wrRam a d =>
    refine onMbc1_busStep s t _ h fun c r hc hn => guarded_busStep c _ s t _ hc.1 hn fun hn => ?_
    exact gated_busStep c r s t _ hc.1 hn fun hn => writeImage_busStep c _ _ s t hc.1 hn
  case wrRamen a d | wrRamb a d | wrMode a d =>
    refine onMbc1_busStep s t _ h fun c r hc hn => guarded_busStep c _ s t _ hc.1 hn fun hn => ?_
    rw [writeRegs_next _ _ _ _ hn]
    exact .of_regs s c r _ _ hc fun h0 => h0
  case wrRomb a d =>
    refine onMbc1_busStep s t _ h fun c r hc hn => guarded_busStep c _ s t _ hc.1 hn fun hn => ?_
    rw [writeRegs_next _ _ _ _ hn]
    exact .of_regs s c r _ _ hc fun _ => coerceRomb_ne d
  case rdUnmapped8 a | rdUnmappedC a | wrUnmapped8 a d | wrUnmappedC a d =>
    exact onMbc1_busStep s t _ h fun c r hc hn => raise_busStep _ c s t hc.1 hn
  case nbRdRom a =>
    obtain ⟨c, hc, hn⟩ := onNobank_next s t _ h
    exact readImage_busStep c _ s t hc.1 hn
  case nbRdUnmapped a | nbWr a d =>
    obtain ⟨c, hc, hn⟩ := onNobank_next s t _ h
    exact raise_busStep _ c s t hc.1 hn
  all_goals simp [Instr.variant?] at hv

/-- A transaction keeps the header, the capacity and the variant (R21, R23). -/
theorem CartStep.keeps (c c' : Cartridge) (h : CartStep c c') :
    c'.hdr = c.hdr ∧ c'.image.capacity = c.image.capacity ∧ c'.variant = c.variant := by
  rcases h with rfl | ⟨r, r', hr, -, rfl⟩ | ⟨off, d, -, rfl⟩
  · exact ⟨rfl, rfl, rfl⟩
  · exact ⟨rfl, rfl, by simp [Cartridge.variant, hr]⟩
  · exact ⟨rfl, rfl, rfl⟩

end Sys2Proof.Machine
end

