-- ==== Sys2Proof/Tests/Slice0.lean ====
section
/-! SUPPORT. The model's own tests: the WellFormed smoke tests, decodings of words written out from the spec's
encodings, one-step checks with results taken from the vectors V1 to V44, the programs P1 to P5 and the load cases LD1
to LD5 of spec/95_test_vectors.md, and a witness for the hypotheses of each obligation that has some. -/

namespace Sys2Proof.Tests

open Sys2Proof Sys2Proof.Machine

/-! ## Helpers -/

/-- An MBC1 cartridge with a sparse image. -/
def mbc1Cart (capacity : Nat) (cells : Memory) (r : Mbc1Regs) : Cartridge :=
  { image := ⟨capacity, cells⟩, hdr := Header.boot, ctrl := .mbc1 r }

/-- A NOBANK cartridge with a sparse image. -/
def nobankCart (capacity : Nat) (cells : Memory) : Cartridge :=
  { image := ⟨capacity, cells⟩, hdr := Header.boot, ctrl := .nobank }

/-- A cartridge in the slot, and requests. -/
def withCart (c : Cartridge) (q : List Request) : State := { cart := some c, loading := none, queue := q, reply := none }

/-- A header of the type `t` awaits the selector. -/
def withHeader (t : Byte) : State := { cart := none, loading := some (Loading.withType t), queue := [], reply := none }

/-- The reply of a next state. -/
def replyOf : Host.Outcome State Fault Refusal → Option Reply
  | .next t => t.reply
  | .fault _ | .refused _ => none

/-- The registers of a controller. -/
def ctrlRegs : Controller → Option Mbc1Regs
  | .mbc1 r => some r
  | .nobank => none

/-- The MBC1 registers of a next state. -/
def regsOf : Host.Outcome State Fault Refusal → Option Mbc1Regs
  | .next t => t.cart.bind fun c => ctrlRegs c.ctrl
  | .fault _ | .refused _ => none

/-- A byte of the image of a next state. -/
def byteOf (off : Nat) : Host.Outcome State Fault Refusal → Option Byte
  | .next t => t.cart.map fun c => c.image.read off
  | .fault _ | .refused _ => none

/-- The variant of the cartridge of a next state. -/
def variantOf : Host.Outcome State Fault Refusal → Option Variant
  | .next t => t.cart.map (·.variant)
  | .fault _ | .refused _ => none

/-- The example header H0 of spec/95_test_vectors.md, part 2.1. -/
def h0List : List Byte :=
  [0x00, 0xC3, 0x50, 0x01, 0x1F, 0x26, 0x2D, 0x34, 0x3B, 0x42, 0x49, 0x50, 0x57, 0x5E, 0x65, 0x6C]
    ++ [0x73, 0x7A, 0x81, 0x88, 0x8F, 0x96, 0x9D, 0xA4, 0xAB, 0xB2, 0xB9, 0xC0, 0xC7, 0xCE, 0xD5, 0xDC]
    ++ [0xE3, 0xEA, 0xF1, 0xF8, 0xFF, 0x06, 0x0D, 0x14, 0x1B, 0x22, 0x29, 0x30, 0x37, 0x3E, 0x45, 0x4C]
    ++ [0x53, 0x5A, 0x61, 0x68, 0x5A, 0x45, 0x4C, 0x44, 0x41, 0x00, 0x00, 0x00, 0x00, 0x00, 0x00, 0x00]
    ++ [0x00, 0x00, 0x00, 0x00, 0x30, 0x31, 0x00, 0x01, 0x01, 0x02, 0x01, 0x33, 0x00, 0xDE, 0x12, 0x34]

/-- H0 as a header. -/
def h0 : Header := ⟨h0List.toArray, by decide⟩

/-- The header of LD2: H0 with the type byte 0x00 and the checksum that goes with it. -/
def h0Nobank : Header := (h0.set 0x47 0x00#8).set 0x4D 0xDF#8

/-- 0x150 bytes with H0 at `HEADER_BASE` (the image of LD5 with `CAPACITY` 0x150, its other bytes zero). -/
def h0Image : List Byte := List.replicate 0x100 0x00#8 ++ h0List

/-- 0x150 bytes with a given header at `HEADER_BASE`. -/
def imageOf (h : Header) : List Byte := List.replicate 0x100 0x00#8 ++ h.toList

/-! ## WellFormed: a term that each check refuses, and one it accepts -/

theorem test_wf_accepts_window_ends :
    (Instr.rdRom0 0x3FFF#16).wf = true ∧ (Instr.rdRomx 0x4000#16).wf = true ∧ (Instr.rdRam 0xBFFF#16).wf = true ∧
      (Instr.wrRomb 0x2000#16 0xFF#8).wf = true ∧ (Instr.wrUnmappedC 0xFFFF#16 0#8).wf = true ∧
      (Instr.nbWr 0xFFFF#16 0#8).wf = true ∧ (Instr.ctUnknown 0x04#8).wf = true := by decide

theorem test_wf_refuses_reads :
    (Instr.rdRom0 0x4000#16).wf = false ∧ (Instr.rdRomx 0x3FFF#16).wf = false ∧ (Instr.rdRomx 0x8000#16).wf = false ∧
      (Instr.rdUnmapped8 0x7FFF#16).wf = false ∧ (Instr.rdUnmapped8 0xA000#16).wf = false ∧
      (Instr.rdRam 0x9FFF#16).wf = false ∧ (Instr.rdRam 0xC000#16).wf = false ∧
      (Instr.rdUnmappedC 0xBFFF#16).wf = false := by decide

theorem test_wf_refuses_writes :
    (Instr.wrRamen 0x2000#16 0#8).wf = false ∧ (Instr.wrRomb 0x1FFF#16 0#8).wf = false ∧
      (Instr.wrRomb 0x4000#16 0#8).wf = false ∧ (Instr.wrRamb 0x3FFF#16 0#8).wf = false ∧
      (Instr.wrRamb 0x6000#16 0#8).wf = false ∧ (Instr.wrMode 0x5FFF#16 0#8).wf = false ∧
      (Instr.wrMode 0x8000#16 0#8).wf = false ∧ (Instr.wrUnmapped8 0x7FFF#16 0#8).wf = false ∧
      (Instr.wrUnmapped8 0xA000#16 0#8).wf = false ∧ (Instr.wrRam 0x9FFF#16 0#8).wf = false ∧
      (Instr.wrRam 0xC000#16 0#8).wf = false ∧ (Instr.wrUnmappedC 0xBFFF#16 0#8).wf = false := by decide

theorem test_wf_refuses_nobank_and_types :
    (Instr.nbRdRom 0x8000#16).wf = false ∧ (Instr.nbRdUnmapped 0x7FFF#16).wf = false ∧
      (Instr.ctUnknown 0x00#8).wf = false ∧ (Instr.ctUnknown 0xFF#8).wf = false := by decide

/-! ## Decoding: words written out from the spec's encodings (the column T of P1 and P2, V19 to V21, V39; R88) -/

theorem test_decode_mbc1_reads :
    decodeBus .mbc1 0x03FFF00#25 = .rdRom0 0x3FFF#16 ∧ decodeBus .mbc1 0x0412300#25 = .rdRomx 0x4123#16 ∧
      decodeBus .mbc1 0x09FFF00#25 = .rdUnmapped8 0x9FFF#16 ∧ decodeBus .mbc1 0x0BFFF00#25 = .rdRam 0xBFFF#16 ∧
      decodeBus .mbc1 0x0FFFF00#25 = .rdUnmappedC 0xFFFF#16 := by decide

theorem test_decode_mbc1_writes :
    decodeBus .mbc1 0x11FFF00#25 = .wrRamen 0x1FFF#16 0x00#8 ∧ decodeBus .mbc1 0x1210020#25 = .wrRomb 0x2100#16 0x20#8 ∧
      decodeBus .mbc1 0x14000FF#25 = .wrRamb 0x4000#16 0xFF#8 ∧ decodeBus .mbc1 0x1600080#25 = .wrMode 0x6000#16 0x80#8 ∧
      decodeBus .mbc1 0x1800001#25 = .wrUnmapped8 0x8000#16 0x01#8 ∧
      decodeBus .mbc1 0x1A105EE#25 = .wrRam 0xA105#16 0xEE#8 ∧
      decodeBus .mbc1 0x1FFFFAA#25 = .wrUnmappedC 0xFFFF#16 0xAA#8 := by decide

theorem test_decode_nobank :
    decodeBus .nobank 0x07FFF00#25 = .nbRdRom 0x7FFF#16 ∧ decodeBus .nobank 0x0800000#25 = .nbRdUnmapped 0x8000#16 ∧
      decodeBus .nobank 0x1200005#25 = .nbWr 0x2000#16 0x05#8 ∧ decodeBus .nobank 0x100000A#25 = .nbWr 0x0000#16 0x0A#8 := by
  decide

theorem test_decode_types_implemented :
    decodeCt 0x00#8 = .ctNobank ∧ decodeCt 0x01#8 = .ctMbc1T01 ∧ decodeCt 0x02#8 = .ctMbc1T02 ∧
      decodeCt 0x03#8 = .ctMbc1T03 := by decide

theorem test_decode_types_named :
    decodeCt 0x05#8 = .ctMbc2T05 ∧ decodeCt 0x06#8 = .ctMbc2T06 ∧ decodeCt 0x0F#8 = .ctMbc3T0F ∧
      decodeCt 0x10#8 = .ctMbc3T10 ∧ decodeCt 0x11#8 = .ctMbc3T11 ∧ decodeCt 0x12#8 = .ctMbc3T12 ∧
      decodeCt 0x13#8 = .ctMbc3T13 ∧ decodeCt 0x15#8 = .ctMbc4T15 ∧ decodeCt 0x16#8 = .ctMbc4T16 ∧
      decodeCt 0x17#8 = .ctMbc4T17 ∧ decodeCt 0x19#8 = .ctMbc5T19 ∧ decodeCt 0x1A#8 = .ctMbc5T1A ∧
      decodeCt 0x1B#8 = .ctMbc5T1B ∧ decodeCt 0x1C#8 = .ctMbc5T1C ∧ decodeCt 0x1D#8 = .ctMbc5T1D ∧
      decodeCt 0x1E#8 = .ctMbc5T1E ∧ decodeCt 0xFF#8 = .ctHuc1 := by decide

/-- V18: the values next to each range of the type table. -/
theorem test_decode_types_unknown :
    decodeCt 0x04#8 = .ctUnknown 0x04#8 ∧ decodeCt 0x07#8 = .ctUnknown 0x07#8 ∧ decodeCt 0x0E#8 = .ctUnknown 0x0E#8 ∧
      decodeCt 0x14#8 = .ctUnknown 0x14#8 ∧ decodeCt 0x18#8 = .ctUnknown 0x18#8 ∧
      decodeCt 0x1F#8 = .ctUnknown 0x1F#8 ∧ decodeCt 0xFE#8 = .ctUnknown 0xFE#8 := by decide

theorem test_decode_bytes :
    decodeBytes .mbc1 [0x05#8, 0x00#8, 0x20#8, 0x01#8] = .ok (.wrRomb 0x2000#16 0x05#8) ∧
      decodeBytes .mbc1 [0x00#8, 0x00#8, 0x00#8, 0x02#8] = .error .reservedBits ∧
      decodeBytes .mbc1 [0x03#8] = .ok .ctMbc1T03 ∧ decodeBytes .nobank [] = .error .badLength ∧
      decodeBytes .nobank [0x00#8, 0x00#8] = .error .badLength := by decide

theorem test_decode_table_words :
    decodeTableWord 32 0x1A0005C = some (.wrRam 0xA000#16 0x5C#8) ∧ decodeTableWord 32 0x0010500 = some (.rdRom0 0x0105#16) ∧
      decodeTableWord 25 0x1FFFFAA = some (.wrUnmappedC 0xFFFF#16 0xAA#8) ∧ decodeTableWord 8 0xFF = some .ctHuc1 ∧
      decodeTableWord 32 0x2000000 = none := by decide

theorem test_encode :
    encode (.wrRam 0xA010#16 0x77#8) = .bus 0x1A01077#25 ∧ encode (.rdRomx 0x7FFF#16) = .bus 0x07FFF00#25 ∧
      encode (.ctUnknown 0x04#8) = .ct 0x04#8 := by decide

/-! ## MBC1 reads -/

/-- P1 step 2's address in IMG_D (`image[i] = i & 0xFF`), and P5 step 5. -/
theorem test_rdRom0 :
    replyOf (exec (.rdRom0 0x3FFF#16) (withCart (mbc1Cart 0x8000 [(0x3FFF, 0xFF#8)] ⟨0, 1, 0, 0⟩) [])) =
        some (.data 0xFF#8) ∧
      replyOf (exec (.rdRom0 0x3000#16) (withCart (mbc1Cart 0x3000 [] ⟨0, 1, 0, 0⟩) [])) = some (.err .addressError) := by
  decide

/-- V27: `RomIdx` = 0x7F, the last byte of a 2 MiB image; V28: in mode 1 the index is 0x1F. -/
theorem test_rdRomx_index :
    replyOf (exec (.rdRomx 0x7FFF#16) (withCart (mbc1Cart 0x200000 [(0x1FFFFF, 0x7F#8)] ⟨0, 0x1F, 3, 0⟩) [])) =
        some (.data 0x7F#8) ∧
      replyOf (exec (.rdRomx 0x4000#16) (withCart (mbc1Cart 0x200000 [(0x7C000, 0x1F#8)] ⟨0, 0x1F, 3, 1⟩) [])) =
        some (.data 0x1F#8) := by decide

/-- V30: no wrap to bank 0 at the image's end; V23: bank 0 in the switchable window. -/
theorem test_rdRomx_ends :
    replyOf (exec (.rdRomx 0x4000#16) (withCart (mbc1Cart 0x20000 [] ⟨0, 8, 0, 0⟩) [])) = some (.err .addressError) ∧
      replyOf (exec (.rdRomx 0x7FFF#16) (withCart (mbc1Cart 0x20000 [(0x3FFF, 0x55#8)] ⟨0, 0x20, 0, 0⟩) [])) =
        some (.data 0x55#8) := by decide

/-- P2 steps 31 and 27: bank 2 of mode 1 with `RAMB` = 0x06 and `MODE` = 0x80; mode 0 is `image[A]`. -/
theorem test_rdRam_offset :
    replyOf (exec (.rdRam 0xA010#16) (withCart (mbc1Cart 0x10000 [(0x4010, 0x77#8)] ⟨0x0A, 1, 6, 0x80⟩) [])) =
        some (.data 0x77#8) ∧
      replyOf (exec (.rdRam 0xA000#16) (withCart (mbc1Cart 0x10000 [(0xA000, 0x5C#8)] ⟨0x0A, 1, 2, 0⟩) [])) =
        some (.data 0x5C#8) := by decide

/-- P2 step 12: low nibble 0x0 closes; P4 step 2: beyond the image the guard comes before the gate. -/
theorem test_rdRam_errors :
    replyOf (exec (.rdRam 0xA000#16) (withCart (mbc1Cart 0x10000 [] ⟨0xA0, 1, 0, 0⟩) [])) =
        some (.err .ramDisabledError) ∧
      replyOf (exec (.rdRam 0xA000#16) (withCart (mbc1Cart 0x8000 [] ⟨0, 1, 0, 0⟩) [])) = some (.err .addressError) := by
  decide

/-- V39: `CAPACITY` 0x10000, so that the guard catches nothing. -/
theorem test_read_unmapped :
    replyOf (exec (.rdUnmapped8 0x8000#16) (withCart (mbc1Cart 0x10000 [(0x8000, 0x80#8)] ⟨0x0A, 1, 0, 0⟩) [])) =
        some (.err .addressError) ∧
      replyOf (exec (.rdUnmappedC 0xFFFF#16) (withCart (mbc1Cart 0x10000 [(0xFFFF, 0xFF#8)] ⟨0x0A, 1, 0, 0⟩) [])) =
        some (.err .addressError) := by decide

/-! ## MBC1 writes -/

/-- P2 step 11: the byte whole. -/
theorem test_wrRamen :
    regsOf (exec (.wrRamen 0x1234#16 0xA0#8) (withCart (mbc1Cart 0x10000 [] ⟨0x0A, 1, 2, 3⟩) [])) =
      some ⟨0xA0#8, 1, 2, 3⟩ := by decide

/-- P1 steps 7 and 9: 0x00 becomes 0x01, 0x20 stays. -/
theorem test_wrRomb :
    regsOf (exec (.wrRomb 0x3FFF#16 0x00#8) (withCart (mbc1Cart 0x20000 [] ⟨0, 5, 2, 3⟩) [])) = some ⟨0, 0x01#8, 2, 3⟩ ∧
      regsOf (exec (.wrRomb 0x2100#16 0x20#8) (withCart (mbc1Cart 0x20000 [] ⟨0, 1, 2, 3⟩) [])) =
        some ⟨0, 0x20#8, 2, 3⟩ := by decide

/-- P5 step 2: a register address at `CAPACITY`; the guard comes before the register. -/
theorem test_wrRomb_guard :
    replyOf (exec (.wrRomb 0x3000#16 0x04#8) (withCart (mbc1Cart 0x3000 [] ⟨0, 3, 0, 0⟩) [])) = some (.err .addressError) ∧
      regsOf (exec (.wrRomb 0x3000#16 0x04#8) (withCart (mbc1Cart 0x3000 [] ⟨0, 3, 0, 0⟩) [])) = some ⟨0, 3, 0, 0⟩ := by
  decide

/-- P2 step 29 and P3 step 16: the byte whole. -/
theorem test_wrRamb :
    regsOf (exec (.wrRamb 0x4000#16 0xFF#8) (withCart (mbc1Cart 0x200000 [] ⟨9, 0x20, 0, 7⟩) [])) =
      some ⟨9, 0x20, 0xFF#8, 7⟩ := by decide

/-- P2 step 30: the byte whole. -/
theorem test_wrMode :
    regsOf (exec (.wrMode 0x6000#16 0x80#8) (withCart (mbc1Cart 0x10000 [] ⟨0x0A, 1, 6, 0⟩) [])) =
      some ⟨0x0A, 1, 6, 0x80#8⟩ := by decide

/-- P2 steps 17 and 5: where the byte lands in mode 1, bank 2, and in mode 0. -/
theorem test_wrRam :
    byteOf 0x4010 (exec (.wrRam 0xA010#16 0x77#8) (withCart (mbc1Cart 0x10000 [] ⟨0x0A, 1, 2, 1⟩) [])) =
        some 0x77#8 ∧
      byteOf 0xA000 (exec (.wrRam 0xA000#16 0x5C#8) (withCart (mbc1Cart 0x10000 [] ⟨0x0A, 1, 2, 0⟩) [])) =
        some 0x5C#8 := by decide

/-- V42: with the gate closed the byte does not land. -/
theorem test_wrRam_gate :
    replyOf (exec (.wrRam 0xA000#16 0x11#8) (withCart (mbc1Cart 0x10000 [(0xA000, 0xA0#8)] ⟨0, 5, 2, 0⟩) [])) =
        some (.err .ramDisabledError) ∧
      byteOf 0xA000 (exec (.wrRam 0xA000#16 0x11#8) (withCart (mbc1Cart 0x10000 [(0xA000, 0xA0#8)] ⟨0, 5, 2, 0⟩) [])) =
        some 0xA0#8 := by decide

/-- V39. -/
theorem test_write_unmapped :
    replyOf (exec (.wrUnmapped8 0x9FFF#16 1#8) (withCart (mbc1Cart 0x10000 [] ⟨0x0A, 1, 0, 0⟩) [])) =
        some (.err .addressError) ∧
      replyOf (exec (.wrUnmappedC 0xC000#16 1#8) (withCart (mbc1Cart 0x10000 [] ⟨0x0A, 1, 0, 0⟩) [])) =
        some (.err .addressError) := by decide

/-! ## NOBANK -/

/-- V19 and V22. -/
theorem test_nbRdRom :
    replyOf (exec (.nbRdRom 0x0150#16) (withCart (nobankCart 0x8000 [(0x150, 0x50#8)]) [])) = some (.data 0x50#8) ∧
      replyOf (exec (.nbRdRom 0x3000#16) (withCart (nobankCart 0x3000 []) [])) = some (.err .addressError) := by decide

/-- V20 (IMG_B) and V22: a write is `WriteError` even beyond the image. -/
theorem test_nobank_refusals :
    replyOf (exec (.nbRdUnmapped 0xA000#16) (withCart (nobankCart 0x10000 [(0xA000, 0xA0#8)]) [])) =
        some (.err .addressError) ∧
      replyOf (exec (.nbWr 0x3000#16 0x00#8) (withCart (nobankCart 0x3000 []) [])) = some (.err .writeError) := by decide

/-! ## The selector, one type byte of each class (V17; LD1 to LD3) -/

theorem test_ctNobank :
    variantOf (exec .ctNobank (withHeader 0x00#8)) = some .nobank ∧ replyOf (exec .ctNobank (withHeader 0x00#8)) = some .ok := by
  decide

theorem test_ctMbc1 :
    regsOf (exec .ctMbc1T01 (withHeader 0x01#8)) = some ⟨0x00, 0x01, 0x00, 0x00⟩ ∧
      regsOf (exec .ctMbc1T02 (withHeader 0x02#8)) = some ⟨0x00, 0x01, 0x00, 0x00⟩ ∧
      regsOf (exec .ctMbc1T03 (withHeader 0x03#8)) = some ⟨0x00, 0x01, 0x00, 0x00⟩ := by decide

theorem test_ct_unsupported :
    replyOf (exec .ctMbc2T05 (withHeader 0x05#8)) = some (.err .unsupportedCartridgeError) ∧
      variantOf (exec .ctMbc2T05 (withHeader 0x05#8)) = none ∧
      replyOf (exec .ctMbc3T13 (withHeader 0x13#8)) = some (.err .unsupportedCartridgeError) ∧
      replyOf (exec .ctMbc4T17 (withHeader 0x17#8)) = some (.err .unsupportedCartridgeError) ∧
      replyOf (exec .ctMbc5T1E (withHeader 0x1E#8)) = some (.err .unsupportedCartridgeError) ∧
      replyOf (exec .ctHuc1 (withHeader 0xFF#8)) = some (.err .unsupportedCartridgeError) ∧
      replyOf (exec (.ctUnknown 0x04#8) (withHeader 0x04#8)) = some (.err .unsupportedCartridgeError) := by decide

/-! ## The header (V1 to V12) and the address value (V13 to V16) -/

/-- V2 and V12. -/
theorem test_cks :
    h0.cks = 0xDE#8 ∧ Header.cks (h0.set 0x47 0x00#8) = 0xDF#8 ∧ Header.cks (h0.set 0x47 0x05#8) = 0xDA#8 ∧
      Header.cks (h0.set 0x47 0x13#8) = 0xCC#8 ∧ Header.cks (h0.set 0x47 0xFF#8) = 0xE0#8 := by decide

/-- V1 and V3. -/
theorem test_cks_uniform :
    Header.cks (Vector.replicate 80 0x00#8) = 0xE7#8 ∧ Header.cks (Vector.replicate 80 0xFF#8) = 0x00#8 := by decide

/-- V2, V4, V5 and V6. -/
theorem test_parse_checksum :
    parse h0List = .ok h0 ∧ parse (h0List.set 0x34 0x5B#8) = .error .checksumError ∧
      parse (h0List.set 0x4D 0xDF#8) = .error .checksumError ∧
      parse ((h0List.set 0x34 0x5B#8).set 0x35 0x44#8) = .ok ((h0.set 0x34 0x5B#8).set 0x35 0x44#8) := by decide

/-- V8. -/
theorem test_parse_length :
    parse (h0List.take 79) = .error .formatError ∧ parse (h0List ++ [0x00#8]) = .error .formatError ∧
      parse [] = .error .formatError := by decide

/-- V2: the fields of H0. -/
theorem test_fields :
    h0.entry = [0x00#8, 0xC3#8, 0x50#8, 0x01#8] ∧ h0.title = [0x5A#8, 0x45#8, 0x4C#8, 0x44#8, 0x41#8] ∧
      h0.licence = [0x30#8, 0x31#8] ∧ h0.sgb = 0x00#8 ∧ h0.typeByte = 0x01#8 ∧ h0.romSize = 0x01#8 ∧
      h0.ramSize = 0x02#8 ∧ h0.destination = 0x01#8 ∧ h0.oldLicence = 0x33#8 ∧ h0.version = 0x00#8 ∧
      h0.headerChecksum = 0xDE#8 ∧ h0.global = 0x1234#16 := by decide

/-- V6 and V9 (f): an empty title, and "a1" before a zero byte. -/
theorem test_title :
    Header.title (h0.set 0x34 0x5B#8) = [] ∧
      Header.title (((h0.set 0x34 0x61#8).set 0x35 0x31#8).set 0x36 0x00#8) = [0x61#8, 0x31#8] := by decide

/-- V10 (a) and (e). -/
theorem test_licence :
    Header.licence (h0.set 0x4B 0x01#8) = [0x01#8] ∧ Header.licence (h0.set 0x4B 0x34#8) = [0x34#8] := by decide

/-- V13. -/
theorem test_satSub :
    AddressValue.satSub (AddressValue.ofRaw 5#16) 10 = 0#16 ∧ AddressValue.satSub 0x1234#16 0x34 = 0x1200#16 ∧
      AddressValue.satSub 0xFFFF#16 0xFFFF = 0#16 ∧ AddressValue.satSub 0xBFFF#16 0xA000 = 0x1FFF#16 := by decide

/-- V14. -/
theorem test_inRange :
    AddressValue.inRange 0x3FFF#16 0x4000#16 0x7FFF#16 = false ∧ AddressValue.inRange 0x4000#16 0x4000#16 0x7FFF#16 = true ∧
      AddressValue.inRange 0x7FFF#16 0x4000#16 0x7FFF#16 = true ∧
      AddressValue.inRange 0x8000#16 0x4000#16 0x7FFF#16 = false ∧
      AddressValue.inRange 0x5000#16 0x7FFF#16 0x4000#16 = false := by decide

/-- V15. -/
theorem test_add :
    AddressValue.add? 0x4000#16 0x3FFF = some 0x7FFF#16 ∧ AddressValue.add? 0xFFFF#16 0 = some 0xFFFF#16 ∧
      AddressValue.add? 0xFFFF#16 1 = none := by decide

/-- V16, and the other comparisons of R114 on the same values. -/
theorem test_comparisons :
    AddressValue.geRaw 0x8000#16 0x8000 = true ∧ AddressValue.gtRaw 0x7FFF#16 0x7FFF = false ∧
      AddressValue.geRaw 0xFFFF#16 0x20000 = false ∧ AddressValue.eqRaw 0#16 0 = true ∧
      AddressValue.neRaw 0#16 0 = false ∧ AddressValue.leRaw 0x7FFF#16 0x7FFF = true ∧
      AddressValue.ltRaw 0x8000#16 0x8000 = false := by decide

/-! ## Requests, LOAD and reset -/

/-- LD5: with one byte too few there is no header; an undeliverable stream. -/
theorem test_load_errors :
    replyOf (beginLoad (.memory (h0Image.take 0x14F)) State.reset) = some (.err .formatError) ∧
      replyOf (beginLoad (.memory []) State.reset) = some (.err .formatError) ∧
      replyOf (beginLoad (.stream true false h0Image) State.reset) = some (.err .ioError) := by decide

/-- LD4 and LD5: a wrong checksum byte; 0x150 bytes are enough. -/
theorem test_load_header :
    replyOf (beginLoad (.memory (h0Image.set 0x14D 0xDF#8)) State.reset) = some (.err .checksumError) ∧
      replyOf (beginLoad (.memory h0Image) State.reset) = none := by decide

/-- The image behind `State.reset` has the header it should have, and that header is accepted. -/
theorem test_boot :
    Header.boot.cks = 0xE6#8 ∧ Image.boot.read 0x147 = 0x01#8 ∧ Image.boot.read 0x14D = 0xE6#8 ∧ Image.boot.wf = true ∧
      regsOf (.next State.reset) = some ⟨0x00, 0x01, 0x00, 0x00⟩ := by decide

/-- `withFetchWord` makes the next step run the table word's instruction. -/
theorem test_withFetchWord :
    replyOf (step (State.reset.withFetchWord 32 0x0014700)) = some (.data 0x01#8) ∧
      regsOf (step (State.reset.withFetchWord 32 0x1200005)) = some ⟨0x00, 0x05, 0x00, 0x00⟩ ∧
      variantOf (step (State.reset.withFetchWord 8 0x00)) = some .nobank ∧
      replyOf (step (State.reset.withFetchWord 8 0x1B)) = some (.err .unsupportedCartridgeError) := by decide

/-- A sub-kind answers as its kind (C5), and the spec's numbers. -/
theorem test_error_kinds :
    ErrorKind.checksumError.isFormatError = true ∧ ErrorKind.addressError.isFormatError = false ∧
      ErrorKind.formatError.code = 1 ∧ ErrorKind.unsupportedCartridgeError.code = 7 := by decide

/-- A byte of the image as a collaborator reads it (R71). -/
theorem test_byte? :
    Image.boot.byte? 0x147 = some 0x01#8 ∧ Image.boot.byte? 0xFFFF = some 0x00#8 ∧ Image.boot.byte? 0x10000 = none := by
  decide


/-! ## Witnesses: the hypotheses of each obligation that has some can be met, clause by clause, at the ends of ranges -/

/-- An MBC1 state of a given capacity with an image of zeros. -/
def zeros (capacity : Nat) (r : Mbc1Regs) (q : List Request) : State := withCart (mbc1Cart capacity [] r) q

/-- No cartridge, and requests. -/
def noCart (q : List Request) : State := { cart := none, loading := none, queue := q, reply := none }

/-- A legal cartridge in the slot makes a legal state. -/
theorem withCart_inv (c : Cartridge) (q : List Request) (h : c.Inv) : (withCart c q).Inv :=
  ⟨fun _ hc => Option.some.inj hc ▸ h, fun _ hl => (by cases hl), fun _ hl => (by cases hl)⟩

/-- A legal MBC1 cartridge: the gate open, bank 5 of a large image, RAM banking. -/
def legalCart : Cartridge := mbc1Cart 0x20000 [(0x14123, 0x05#8)] ⟨0x0A, 0x05, 0x02, 0x01⟩

theorem legalCart_inv : legalCart.Inv := ⟨by decide, by decide, by decide, by decide, by decide⟩

theorem witness_StepRunsTheSelectedOperation :
    (withHeader 0x1B#8).loading = some (Loading.withType 0x1B#8) ∧
      (withCart legalCart [.bus 0x0400000#25]).NextIs 0x0400000#25 [] ∧
      (withCart legalCart [.bus 0x0400000#25]).cart = some legalCart := by decide

theorem witness_StepWithoutAnOperation :
    ((noCart []).loading = none ∧ (noCart []).queue = []) ∧
      ((noCart [.load (.memory [])]).loading = none ∧ (noCart [.load (.memory [])]).queue = .load (.memory []) :: []) ∧
      ((noCart [.bus 0x0000000#25]).NextIs 0x0000000#25 [] ∧ (noCart [.bus 0x0000000#25]).cart = none) := by decide

theorem witness_StepStopsOnlyWithoutACartridge :
    ((withCart legalCart [.bus 0x1FFFFFF#25]).NextIs 0x1FFFFFF#25 [] ∧
        (withCart legalCart [.bus 0x1FFFFFF#25]).cart = some legalCart) ∧
      ((noCart [.bus 0x0000000#25]).NextIs 0x0000000#25 [] ∧ (noCart [.bus 0x0000000#25]).cart = none) := by decide

theorem witness_TypeByteTable :
    namedTypes.contains 0x04#8 = false ∧ namedTypes.contains 0x14#8 = false ∧ namedTypes.contains 0xFE#8 = false := by
  decide

theorem witness_EveryWordSelectsOneRow :
    (⟨"WR.RAM", 0x1E00000#25, 0x1A00000#25⟩ : Row) ∈ busRows .mbc1 ∧
      Row.selects ⟨"WR.RAM", 0x1E00000#25, 0x1A00000#25⟩ 0x1BFFFFF#25 = true ∧
      (⟨"NB.WR", 0x1000000#25, 0x1000000#25⟩ : Row) ∈ busRows .nobank ∧
      Row.selects ⟨"NB.WR", 0x1000000#25, 0x1000000#25⟩ 0x1000000#25 = true := by decide

theorem witness_DecodeOfEncodeIsTheInstruction :
    ((Instr.wrRam 0xBFFF#16 0xFF#8).wf = true ∧ (Instr.wrRam 0xBFFF#16 0xFF#8).variant? = some .mbc1) ∧
      ((Instr.nbRdRom 0x7FFF#16).wf = true ∧ (Instr.nbRdRom 0x7FFF#16).variant? = some .nobank) ∧
      ((Instr.ctUnknown 0xFE#8).wf = true ∧ (Instr.ctUnknown 0xFE#8).variant? = none) := by decide

theorem witness_DecodeOfEncodedBytesIsTheInstruction :
    ((Instr.rdRom0 0x0000#16).wf = true ∧ (Instr.rdRom0 0x0000#16).variant? = some .mbc1) ∧
      ((Instr.nbWr 0xFFFF#16 0xFF#8).wf = true ∧ (Instr.nbWr 0xFFFF#16 0xFF#8).variant? = some .nobank) ∧
      (Instr.ctHuc1.wf = true ∧ Instr.ctHuc1.variant? = none) := by decide

theorem witness_ReadOfTheFixedWindow :
    ((zeros 0x3FFF ⟨0, 1, 0, 0⟩ []).HasMbc1 (mbc1Cart 0x3FFF [] ⟨0, 1, 0, 0⟩) ⟨0, 1, 0, 0⟩ ∧ (0x3FFF#16).toNat ≤ 0x3FFF ∧
        (mbc1Cart 0x3FFF [] ⟨0, 1, 0, 0⟩).image.capacity ≤ (0x3FFF#16).toNat) ∧
      ((zeros 0x4000 ⟨0, 1, 0, 0⟩ []).HasMbc1 (mbc1Cart 0x4000 [] ⟨0, 1, 0, 0⟩) ⟨0, 1, 0, 0⟩ ∧ (0x3FFF#16).toNat ≤ 0x3FFF ∧
        (0x3FFF#16).toNat < (mbc1Cart 0x4000 [] ⟨0, 1, 0, 0⟩).image.capacity) := by decide

/-- The hypotheses of `ReadOfTheSwitchableWindow` but the capacity's: an index in each mode, at each end. -/
theorem witness_ReadOfTheSwitchableWindow :
    (∃ s c r, State.HasMbc1 s c r ∧ 0x4000 ≤ (0x4000#16).toNat ∧ (0x4000#16).toNat ≤ 0x7FFF ∧
        1 = (if r.mode = 0x00#8 then ((r.ramb &&& 0x03#8).toNat <<< 5) ||| (r.romb &&& 0x1F#8).toNat
          else (r.romb &&& 0x1F#8).toNat) ∧ c.image.capacity ≤ (0x4000#16).toNat) ∧
      (∃ s c r, State.HasMbc1 s c r ∧ 0x4000 ≤ (0x4000#16).toNat ∧ (0x4000#16).toNat ≤ 0x7FFF ∧
        8 = (if r.mode = 0x00#8 then ((r.ramb &&& 0x03#8).toNat <<< 5) ||| (r.romb &&& 0x1F#8).toNat
          else (r.romb &&& 0x1F#8).toNat) ∧ (0x4000#16).toNat < c.image.capacity ∧
        c.image.capacity ≤ 8 * 0x4000 + ((0x4000#16).toNat - 0x4000)) ∧
      (∃ s c r, State.HasMbc1 s c r ∧ 0x4000 ≤ (0x7FFF#16).toNat ∧ (0x7FFF#16).toNat ≤ 0x7FFF ∧
        0x7F = (if r.mode = 0x00#8 then ((r.ramb &&& 0x03#8).toNat <<< 5) ||| (r.romb &&& 0x1F#8).toNat
          else (r.romb &&& 0x1F#8).toNat) ∧ (0x7FFF#16).toNat < c.image.capacity ∧
        0x7F * 0x4000 + ((0x7FFF#16).toNat - 0x4000) < c.image.capacity) :=
  ⟨⟨zeros 0x4000 ⟨0, 1, 0, 0⟩ [], mbc1Cart 0x4000 [] ⟨0, 1, 0, 0⟩, ⟨0, 1, 0, 0⟩, by decide⟩,
    ⟨zeros 0x20000 ⟨0, 8, 3, 1⟩ [], mbc1Cart 0x20000 [] ⟨0, 8, 3, 1⟩, ⟨0, 8, 3, 1⟩, by decide⟩,
    ⟨zeros 0x200000 ⟨0, 0x1F, 3, 0⟩ [], mbc1Cart 0x200000 [] ⟨0, 0x1F, 3, 0⟩, ⟨0, 0x1F, 3, 0⟩, by decide⟩⟩

/-- The hypotheses of `ReadOfTheRamWindow` and of `WriteOfTheRamWindow`: guard, gate, and each mode. -/
theorem witness_ReadOfTheRamWindow :
    (∃ s c r, State.HasMbc1 s c r ∧ 0xA000 ≤ (0xA000#16).toNat ∧ (0xA000#16).toNat ≤ 0xBFFF ∧
        0xA000 = (if r.mode = 0x00#8 then (0xA000#16).toNat
          else (r.ramb &&& 0x03#8).toNat * 0x2000 + ((0xA000#16).toNat - 0xA000)) ∧
        c.image.capacity ≤ (0xA000#16).toNat) ∧
      (∃ s c r, State.HasMbc1 s c r ∧ 0xA000 ≤ (0xBFFF#16).toNat ∧ (0xBFFF#16).toNat ≤ 0xBFFF ∧
        0xBFFF = (if r.mode = 0x00#8 then (0xBFFF#16).toNat
          else (r.ramb &&& 0x03#8).toNat * 0x2000 + ((0xBFFF#16).toNat - 0xA000)) ∧
        (0xBFFF#16).toNat < c.image.capacity ∧ r.ramen &&& 0x0F#8 ≠ 0x0A#8) ∧
      (∃ s c r, State.HasMbc1 s c r ∧ 0xA000 ≤ (0xBFFF#16).toNat ∧ (0xBFFF#16).toNat ≤ 0xBFFF ∧
        0x7FFF = (if r.mode = 0x00#8 then (0xBFFF#16).toNat
          else (r.ramb &&& 0x03#8).toNat * 0x2000 + ((0xBFFF#16).toNat - 0xA000)) ∧
        (0xBFFF#16).toNat < c.image.capacity ∧ r.ramen &&& 0x0F#8 = 0x0A#8) :=
  ⟨⟨zeros 0xA000 ⟨0x0A, 1, 0, 0⟩ [], mbc1Cart 0xA000 [] ⟨0x0A, 1, 0, 0⟩, ⟨0x0A, 1, 0, 0⟩, by decide⟩,
    ⟨zeros 0xC000 ⟨0xA0, 1, 0, 0⟩ [], mbc1Cart 0xC000 [] ⟨0xA0, 1, 0, 0⟩, ⟨0xA0, 1, 0, 0⟩, by decide⟩,
    ⟨zeros 0xC000 ⟨0xFA, 1, 0xFF, 0x80⟩ [], mbc1Cart 0xC000 [] ⟨0xFA, 1, 0xFF, 0x80⟩, ⟨0xFA, 1, 0xFF, 0x80⟩, by decide⟩⟩

theorem witness_WriteOfTheRamWindow :
    (∃ s c r, State.HasMbc1 s c r ∧ c.image.wf = true ∧ 0xA000 ≤ (0xA000#16).toNat ∧ (0xA000#16).toNat ≤ 0xBFFF ∧
        0xA000 = (if r.mode = 0x00#8 then (0xA000#16).toNat
          else (r.ramb &&& 0x03#8).toNat * 0x2000 + ((0xA000#16).toNat - 0xA000)) ∧
        c.image.capacity ≤ (0xA000#16).toNat) ∧
      (∃ s c r, State.HasMbc1 s c r ∧ c.image.wf = true ∧ 0xA000 ≤ (0xBFFF#16).toNat ∧ (0xBFFF#16).toNat ≤ 0xBFFF ∧
        0xBFFF = (if r.mode = 0x00#8 then (0xBFFF#16).toNat
          else (r.ramb &&& 0x03#8).toNat * 0x2000 + ((0xBFFF#16).toNat - 0xA000)) ∧
        (0xBFFF#16).toNat < c.image.capacity ∧ r.ramen &&& 0x0F#8 ≠ 0x0A#8) ∧
      (∃ s c r, State.HasMbc1 s c r ∧ c.image.wf = true ∧ 0xA000 ≤ (0xBFFF#16).toNat ∧ (0xBFFF#16).toNat ≤ 0xBFFF ∧
        0x7FFF = (if r.mode = 0x00#8 then (0xBFFF#16).toNat
          else (r.ramb &&& 0x03#8).toNat * 0x2000 + ((0xBFFF#16).toNat - 0xA000)) ∧
        (0xBFFF#16).toNat < c.image.capacity ∧ r.ramen &&& 0x0F#8 = 0x0A#8) :=
  ⟨⟨zeros 0xA000 ⟨0x0A, 1, 0, 0⟩ [], mbc1Cart 0xA000 [] ⟨0x0A, 1, 0, 0⟩, ⟨0x0A, 1, 0, 0⟩, by decide⟩,
    ⟨zeros 0xC000 ⟨0xA0, 1, 0, 0⟩ [], mbc1Cart 0xC000 [] ⟨0xA0, 1, 0, 0⟩, ⟨0xA0, 1, 0, 0⟩, by decide⟩,
    ⟨zeros 0xC000 ⟨0xFA, 1, 0xFF, 0x80⟩ [], mbc1Cart 0xC000 [] ⟨0xFA, 1, 0xFF, 0x80⟩, ⟨0xFA, 1, 0xFF, 0x80⟩, by decide⟩⟩

/-- An MBC1 state with an address at each end of a window, and a capacity on each side of it. -/
def windowWitness (lo hi : BitVec 16) : Prop :=
  (∃ s c r, State.HasMbc1 s c r ∧ lo.toNat ≤ hi.toNat ∧ c.image.capacity ≤ lo.toNat) ∧
    ∃ s c r, State.HasMbc1 s c r ∧ lo.toNat ≤ hi.toNat ∧ hi.toNat < c.image.capacity

theorem windowWitness_of_le (lo hi : BitVec 16) (h : lo.toNat ≤ hi.toNat) : windowWitness lo hi :=
  ⟨⟨zeros lo.toNat ⟨0, 1, 0, 0⟩ [], _, _, ⟨rfl, rfl⟩, h, Nat.le_refl _⟩,
    ⟨zeros (hi.toNat + 1) ⟨0, 1, 0, 0⟩ [], _, _, ⟨rfl, rfl⟩, h, Nat.lt_succ_self _⟩⟩

theorem witness_WriteOfTheRamEnableRegister : windowWitness 0x0000#16 0x1FFF#16 := windowWitness_of_le _ _ (by decide)

theorem witness_WriteOfTheRomBankRegister : windowWitness 0x2000#16 0x3FFF#16 := windowWitness_of_le _ _ (by decide)

theorem witness_WriteOfTheRamBankRegister : windowWitness 0x4000#16 0x5FFF#16 := windowWitness_of_le _ _ (by decide)

theorem witness_WriteOfTheModeRegister : windowWitness 0x6000#16 0x7FFF#16 := windowWitness_of_le _ _ (by decide)

theorem witness_UnmappedWindowsAnswerAddressError :
    (zeros 0x10000 ⟨0, 1, 0, 0⟩ []).HasMbc1 (mbc1Cart 0x10000 [] ⟨0, 1, 0, 0⟩) ⟨0, 1, 0, 0⟩ ∧
      (0x8000 ≤ (0x8000#16).toNat ∧ (0x8000#16).toNat ≤ 0x9FFF) ∧ (0x8000 ≤ (0x9FFF#16).toNat ∧ (0x9FFF#16).toNat ≤ 0x9FFF) ∧
      0xC000 ≤ (0xC000#16).toNat := by decide

theorem witness_NobankReadOfTheRom :
    ((withCart (nobankCart 0x8000 []) []).HasNobank (nobankCart 0x8000 []) ∧ (0x7FFF#16).toNat ≤ 0x7FFF ∧
        (0x7FFF#16).toNat < (nobankCart 0x8000 []).image.capacity) ∧
      ((withCart (nobankCart 0x7FFF []) []).HasNobank (nobankCart 0x7FFF []) ∧ (0x7FFF#16).toNat ≤ 0x7FFF ∧
        (nobankCart 0x7FFF []).image.capacity ≤ (0x7FFF#16).toNat) := by decide

theorem witness_NobankRefusesTheRest :
    (withCart (nobankCart 0x10000 []) []).HasNobank (nobankCart 0x10000 []) ∧ 0x8000 ≤ (0x8000#16).toNat := by decide

theorem witness_SelectorBuildsNobank : (withHeader 0x00#8).loading = some (Loading.withType 0x00#8) := by decide

theorem witness_SelectorBuildsMbc1 :
    (withHeader 0x02#8).loading = some (Loading.withType 0x02#8) ∧
      Instr.ctMbc1T02 ∈ [Instr.ctMbc1T01, .ctMbc1T02, .ctMbc1T03] := by decide

theorem witness_SelectorRejectsTheRest :
    0x03 < (0x04#8).toNat ∧ (withHeader 0xFF#8).loading = some (Loading.withType 0xFF#8) ∧
      Instr.ctHuc1 ∈ [Instr.ctMbc2T05, .ctMbc2T06, .ctMbc3T0F, .ctMbc3T10, .ctMbc3T11, .ctMbc3T12, .ctMbc3T13, .ctMbc4T15,
        .ctMbc4T16, .ctMbc4T17, .ctMbc5T19, .ctMbc5T1A, .ctMbc5T1B, .ctMbc5T1C, .ctMbc5T1D, .ctMbc5T1E, .ctHuc1] := by
  decide

theorem witness_ReadsChangeNothing :
    ∃ t, (Instr.rdRam 0xBFFF#16).direction? = some .read ∧
      exec (.rdRam 0xBFFF#16) (zeros 0x10000 ⟨0x0A, 1, 3, 1⟩ []) = .next t :=
  ⟨_, rfl, rfl⟩

theorem witness_RegistersChangeByTheirOwnWrites :
    ∃ t c', exec (.wrRomb 0x2000#16 0x00#8) (zeros 0x10000 ⟨0, 5, 0, 0⟩ []) = .next t ∧
      (Instr.wrRomb 0x2000#16 0x00#8).variant? = some .mbc1 ∧
      (zeros 0x10000 ⟨0, 5, 0, 0⟩ []).HasMbc1 (mbc1Cart 0x10000 [] ⟨0, 5, 0, 0⟩) ⟨0, 5, 0, 0⟩ ∧
      t.HasMbc1 c' ⟨0, 1, 0, 0⟩ ∧ (⟨0, 1, 0, 0⟩ : Mbc1Regs) ≠ ⟨0, 5, 0, 0⟩ :=
  ⟨_, _, rfl, rfl, ⟨rfl, rfl⟩, ⟨rfl, rfl⟩, by decide⟩

theorem witness_ImageChangesOnlyThroughTheOpenGate :
    ∃ t c', exec (.wrRam 0xBFFF#16 0x77#8) (zeros 0x10000 ⟨0x0A, 1, 0, 1⟩ []) = .next t ∧
      (Instr.wrRam 0xBFFF#16 0x77#8).variant? = some .mbc1 ∧
      (zeros 0x10000 ⟨0x0A, 1, 0, 1⟩ []).cart = some (mbc1Cart 0x10000 [] ⟨0x0A, 1, 0, 1⟩) ∧ t.cart = some c' ∧
      c'.image ≠ (mbc1Cart 0x10000 [] ⟨0x0A, 1, 0, 1⟩).image :=
  ⟨_, _, rfl, rfl, rfl, rfl, by decide⟩

theorem witness_ErrorsChangeNothing :
    (∃ t, (zeros 0x10000 ⟨0, 1, 0, 0⟩ [.bus 0x0800000#25]).NextIs 0x0800000#25 [] ∧
        step (zeros 0x10000 ⟨0, 1, 0, 0⟩ [.bus 0x0800000#25]) = .next t ∧ t.reply = some (.err .addressError)) ∧
      (∃ t, (noCart [.load (.memory [])]).loading = none ∧ (noCart [.load (.memory [])]).cart = none ∧
        (noCart [.load (.memory [])]).queue = .load (.memory []) :: [] ∧
        step (noCart [.load (.memory [])]) = .next t ∧ t.reply = some (.err .formatError)) ∧
      (∃ t, (withHeader 0x05#8).loading = some (Loading.withType 0x05#8) ∧ (withHeader 0x05#8).cart = none ∧
        step (withHeader 0x05#8) = .next t ∧ t.reply = some (.err .unsupportedCartridgeError)) :=
  ⟨⟨_, by decide, rfl, rfl⟩, ⟨_, rfl, rfl, rfl, rfl, rfl⟩, ⟨_, rfl, rfl, rfl, rfl⟩⟩

theorem witness_ServiceGoesOnAfterAnError :
    ∃ t, (zeros 0x10000 ⟨0, 1, 0, 0⟩ [.bus 0x1A00011#25, .bus 0x0000000#25]).NextIs 0x1A00011#25 [.bus 0x0000000#25] ∧
      step (zeros 0x10000 ⟨0, 1, 0, 0⟩ [.bus 0x1A00011#25, .bus 0x0000000#25]) = .next t ∧
      t.reply = some (.err .ramDisabledError) :=
  ⟨_, by decide, rfl, rfl⟩

theorem witness_CapacityGuardComesFirst :
    ((zeros 0xA000 ⟨0x0A, 1, 0, 0⟩ [.bus 0x1A00001#25]).NextIs 0x1A00001#25 [] ∧
        (zeros 0xA000 ⟨0x0A, 1, 0, 0⟩ [.bus 0x1A00001#25]).HasMbc1 (mbc1Cart 0xA000 [] ⟨0x0A, 1, 0, 0⟩) ⟨0x0A, 1, 0, 0⟩ ∧
        (mbc1Cart 0xA000 [] ⟨0x0A, 1, 0, 0⟩).image.capacity ≤ (BusWord.addr 0x1A00001#25).toNat) ∧
      0x10000 ≤ (⟨0x10000, []⟩ : Image).capacity := by decide

/-- Both sides of the gate's equivalence occur, and a NOBANK step. -/
theorem witness_RamDisabledExactlyWhenTheGateIsClosed :
    (∃ t, (zeros 0xC000 ⟨0xA0, 1, 0, 0⟩ [.bus 0x0BFFF00#25]).NextIs 0x0BFFF00#25 [] ∧
        (zeros 0xC000 ⟨0xA0, 1, 0, 0⟩ [.bus 0x0BFFF00#25]).HasMbc1 (mbc1Cart 0xC000 [] ⟨0xA0, 1, 0, 0⟩) ⟨0xA0, 1, 0, 0⟩ ∧
        step (zeros 0xC000 ⟨0xA0, 1, 0, 0⟩ [.bus 0x0BFFF00#25]) = .next t ∧ t.reply = some (.err .ramDisabledError)) ∧
      (∃ t, (zeros 0xA000 ⟨0xA0, 1, 0, 0⟩ [.bus 0x0A00000#25]).NextIs 0x0A00000#25 [] ∧
        (zeros 0xA000 ⟨0xA0, 1, 0, 0⟩ [.bus 0x0A00000#25]).HasMbc1 (mbc1Cart 0xA000 [] ⟨0xA0, 1, 0, 0⟩) ⟨0xA0, 1, 0, 0⟩ ∧
        step (zeros 0xA000 ⟨0xA0, 1, 0, 0⟩ [.bus 0x0A00000#25]) = .next t ∧ t.reply = some (.err .addressError)) ∧
      (∃ t, (withCart (nobankCart 0x10000 []) [.bus 0x0A00000#25]).NextIs 0x0A00000#25 [] ∧
        (withCart (nobankCart 0x10000 []) [.bus 0x0A00000#25]).HasNobank (nobankCart 0x10000 []) ∧
        step (withCart (nobankCart 0x10000 []) [.bus 0x0A00000#25]) = .next t) :=
  ⟨⟨_, by decide, by decide, rfl, rfl⟩, ⟨_, by decide, by decide, rfl, rfl⟩, ⟨_, by decide, by decide, rfl⟩⟩

/-- A legal state whose next step writes an image byte. -/
theorem witness_StepKeepsTheInvariant :
    ∃ t, (withCart legalCart [.bus 0x1A01077#25]).Inv ∧ step (withCart legalCart [.bus 0x1A01077#25]) = .next t ∧
      t.reply = some .ok :=
  ⟨_, withCart_inv _ _ legalCart_inv, rfl, rfl⟩

theorem witness_VariantIsFixedByTheTypeByte :
    (∃ t, (withHeader 0x00#8).loading = some (Loading.withType 0x00#8) ∧ step (withHeader 0x00#8) = .next t ∧
        t.reply = some .ok) ∧
      (∃ t, (withCart legalCart [.bus 0x1200005#25]).NextIs 0x1200005#25 [] ∧
        (withCart legalCart [.bus 0x1200005#25]).cart = some legalCart ∧
        step (withCart legalCart [.bus 0x1200005#25]) = .next t) :=
  ⟨⟨_, rfl, rfl, rfl⟩, ⟨_, by decide, rfl, rfl⟩⟩

/-- `step` of a LOAD whose image has an acceptable header. -/
theorem step_load_of_parse (src : Source) (bytes : List Byte) (h : Header) (q : List Request)
    (hd : src.deliver = some bytes) (hp : parse (headerSlice bytes) = .ok h) :
    step (noCart (.load src :: q)) =
      .next { cart := none, loading := some { image := Image.ofBytes bytes, hdr := h }, queue := q, reply := none } := by
  rw [step_load _ src q rfl rfl]
  simp only [beginLoad, hd, hp]
  rfl

theorem h0Image_header : parse (headerSlice h0Image) = .ok h0 := by decide

/-- A LOAD of H0; the selector's turn on it; and a transaction that writes the image byte of the type, 0x0147. -/
theorem witness_HeaderIsASnapshot :
    (∃ t l, (noCart [.load (.memory h0Image)]).loading = none ∧
        (noCart [.load (.memory h0Image)]).queue = .load (.memory h0Image) :: [] ∧
        (Source.memory h0Image).deliver = some h0Image ∧ step (noCart [.load (.memory h0Image)]) = .next t ∧
        t.loading = some l) ∧
      (∃ t c, (withHeader 0x01#8).loading = some (Loading.withType 0x01#8) ∧ step (withHeader 0x01#8) = .next t ∧
        t.cart = some c ∧ (withHeader 0x01#8).cart = none) ∧
      (∃ t c', (zeros 0x10000 ⟨0x0A, 1, 0, 1⟩ [.bus 0x1A14705#25]).NextIs 0x1A14705#25 [] ∧
        (zeros 0x10000 ⟨0x0A, 1, 0, 1⟩ [.bus 0x1A14705#25]).cart = some (mbc1Cart 0x10000 [] ⟨0x0A, 1, 0, 1⟩) ∧
        step (zeros 0x10000 ⟨0x0A, 1, 0, 1⟩ [.bus 0x1A14705#25]) = .next t ∧ t.cart = some c') :=
  ⟨⟨_, _, rfl, rfl, rfl, step_load_of_parse _ _ _ _ rfl h0Image_header, rfl⟩, ⟨_, _, rfl, rfl, rfl, rfl⟩,
    ⟨_, _, by decide, rfl, rfl, rfl⟩⟩

theorem witness_OffsetsAreBitStrings :
    (0x4000 ≤ (0x7FFF#16).toNat ∧ (0x7FFF#16).toNat ≤ 0x7FFF ∧ (⟨0, 0x1F, 3, 0⟩ : Mbc1Regs).mode = 0x00#8) ∧
      (0x4000 ≤ (0x4000#16).toNat ∧ (0x4000#16).toNat ≤ 0x7FFF ∧ (⟨0, 0x1F, 3, 0x80⟩ : Mbc1Regs).mode ≠ 0x00#8) ∧
      (0xA000 ≤ (0xA000#16).toNat ∧ (0xA000#16).toNat ≤ 0xBFFF ∧ (⟨0, 1, 3, 0⟩ : Mbc1Regs).mode = 0x00#8) ∧
      (0xA000 ≤ (0xBFFF#16).toNat ∧ (0xBFFF#16).toNat ≤ 0xBFFF ∧ (⟨0, 1, 3, 0x80⟩ : Mbc1Regs).mode ≠ 0x00#8) := by decide

theorem witness_RamOffsetsStayInTheImage :
    0xA000 ≤ (0xBFFF#16).toNat ∧ (0xBFFF#16).toNat ≤ 0xBFFF ∧ capOk ⟨0xC000, []⟩ 0xBFFF#16 = true ∧
      capOk ⟨0xA001, []⟩ 0xA000#16 = true ∧ (⟨0, 1, 3, 0x80⟩ : Mbc1Regs).mode ≠ 0x00#8 ∧
      (⟨0xA000, []⟩ : Image).capacity ≤ 0xA000 := by decide

theorem witness_RamBanksAreDisjoint :
    0xA000 ≤ (0xBFFF#16).toNat ∧ (0xBFFF#16).toNat ≤ 0xBFFF ∧ (⟨0, 1, 3, 0x80⟩ : Mbc1Regs).mode ≠ 0x00#8 ∧
      (⟨0, 1, 0xFF, 0x01⟩ : Mbc1Regs).mode ≠ 0x00#8 ∧ ramOff ⟨0, 1, 3, 0x80⟩ 0xBFFF#16 = ramOff ⟨0, 1, 0xFF, 0x01⟩ 0xBFFF#16 := by
  decide

theorem witness_FixedWindowIgnoresTheRegisters :
    (zeros 0x8000 ⟨0, 1, 0, 0⟩ [.bus (busWord false 0x3FFF#16 0#8)]).NextIs (busWord false 0x3FFF#16 0#8) [] ∧
      (zeros 0x8000 ⟨0, 1, 0, 0⟩ [.bus (busWord false 0x3FFF#16 0#8)]).HasMbc1 (mbc1Cart 0x8000 [] ⟨0, 1, 0, 0⟩) ⟨0, 1, 0, 0⟩ ∧
      (0x3FFF#16).toNat ≤ 0x3FFF := by decide

theorem witness_UnusedRegisterBitsAreUnobservable :
    (zeros 0x8000 ⟨0x0A, 1, 2, 1⟩ [.bus 0x0400000#25]).NextIs 0x0400000#25 [] ∧
      (zeros 0x8000 ⟨0x0A, 1, 2, 1⟩ [.bus 0x0400000#25]).HasMbc1 (mbc1Cart 0x8000 [] ⟨0x0A, 1, 2, 1⟩) ⟨0x0A, 1, 2, 1⟩ ∧
      Mbc1Regs.visible ⟨0xFA, 0xE1, 0xFE, 0x80⟩ = Mbc1Regs.visible ⟨0x0A, 1, 2, 1⟩ := by decide

theorem witness_RamReadReturnsTheByteWritten :
    (zeros 0xC000 ⟨0x0A, 1, 3, 1⟩ [.bus (busWord true 0xBFFF#16 0x77#8), .bus (busWord false 0xBFFF#16 0#8)]).NextIs
        (busWord true 0xBFFF#16 0x77#8) (.bus (busWord false 0xBFFF#16 0#8) :: []) ∧
      (zeros 0xC000 ⟨0x0A, 1, 3, 1⟩ [.bus (busWord true 0xBFFF#16 0x77#8), .bus (busWord false 0xBFFF#16 0#8)]).HasMbc1
        (mbc1Cart 0xC000 [] ⟨0x0A, 1, 3, 1⟩) ⟨0x0A, 1, 3, 1⟩ ∧
      (mbc1Cart 0xC000 [] ⟨0x0A, 1, 3, 1⟩).image.wf = true ∧ 0xA000 ≤ (0xBFFF#16).toNat ∧ (0xBFFF#16).toNat ≤ 0xBFFF ∧
      (0xBFFF#16).toNat < (mbc1Cart 0xC000 [] ⟨0x0A, 1, 3, 1⟩).image.capacity ∧ (0x0A#8 : Byte) &&& 0x0F#8 = 0x0A#8 := by
  decide

/-- P2's steps 17 to 23, with bank 2 and bank 3. -/
theorem witness_OtherRamBanksAreNotPerturbed :
    (zeros 0x10000 ⟨0x0A, 1, 2, 1⟩ (.bus (busWord true 0xA010#16 0x77#8) :: .bus (busWord true 0x4000#16 0x03#8) ::
        .bus (busWord true 0xA010#16 0x88#8) :: .bus (busWord true 0x5FFF#16 0x02#8) ::
        .bus (busWord false 0xA010#16 0#8) :: [])).NextIs (busWord true 0xA010#16 0x77#8)
      (.bus (busWord true 0x4000#16 0x03#8) :: .bus (busWord true 0xA010#16 0x88#8) ::
        .bus (busWord true 0x5FFF#16 0x02#8) :: .bus (busWord false 0xA010#16 0#8) :: []) ∧
      (zeros 0x10000 ⟨0x0A, 1, 2, 1⟩ []).HasMbc1 (mbc1Cart 0x10000 [] ⟨0x0A, 1, 2, 1⟩) ⟨0x0A, 1, 2, 1⟩ ∧
      (mbc1Cart 0x10000 [] ⟨0x0A, 1, 2, 1⟩).image.wf = true ∧ 0xA000 ≤ (0xA010#16).toNat ∧ (0xA010#16).toNat ≤ 0xBFFF ∧
      (0xA010#16).toNat < (mbc1Cart 0x10000 [] ⟨0x0A, 1, 2, 1⟩).image.capacity ∧ 0x4000 ≤ (0x4000#16).toNat ∧
      (0x4000#16).toNat ≤ 0x5FFF ∧ 0x4000 ≤ (0x5FFF#16).toNat ∧ (0x5FFF#16).toNat ≤ 0x5FFF ∧
      (0x0A#8 : Byte) &&& 0x0F#8 = 0x0A#8 ∧ (1 : Byte) ≠ 0x00#8 ∧ (0x03#8 : Byte) &&& 0x03#8 ≠ (2 : Byte) &&& 0x03#8 := by
  decide

/-- P2's steps 33 and 34, 17 and 25, and the mode-0 byte seen in ROM bank 2. -/
theorem witness_RamWritesShowInTheRomWindows :
    ((zeros 0x10000 ⟨0x0A, 1, 2, 1⟩ [.bus (busWord true 0xA010#16 0x77#8), .bus (busWord false 0x4010#16 0#8)]).NextIs
        (busWord true 0xA010#16 0x77#8) (.bus (busWord false 0x4010#16 0#8) :: []) ∧
        (zeros 0x10000 ⟨0x0A, 1, 2, 1⟩ []).HasMbc1 (mbc1Cart 0x10000 [] ⟨0x0A, 1, 2, 1⟩) ⟨0x0A, 1, 2, 1⟩ ∧
        (mbc1Cart 0x10000 [] ⟨0x0A, 1, 2, 1⟩).image.wf = true ∧
        (0xA010#16).toNat < (mbc1Cart 0x10000 [] ⟨0x0A, 1, 2, 1⟩).image.capacity ∧ (0x0A#8 : Byte) &&& 0x0F#8 = 0x0A#8) ∧
      ((1 : Byte) ≠ 0x00#8 ∧ ((0 : Byte) &&& 0x03#8).toNat < 2 ∧
        (0x0105#16).toNat = ((0 : Byte) &&& 0x03#8).toNat * 0x2000 + ((0xA105#16).toNat - 0xA000)) ∧
      ((1 : Byte) ≠ 0x00#8 ∧ 2 ≤ ((2 : Byte) &&& 0x03#8).toNat ∧ (1 : Byte) &&& 0x1F#8 = 0x01#8 ∧
        (0x4010#16).toNat = ((2 : Byte) &&& 0x03#8).toNat * 0x2000 + ((0xA010#16).toNat - 0xA000)) ∧
      ((0 : Byte) = 0x00#8 ∧ (0 : Byte) &&& 0x03#8 = 0x00#8 ∧ (2 : Byte) &&& 0x1F#8 = 0x02#8 ∧
        (0x7FFF#16).toNat = (0xBFFF#16).toNat - 0x4000) := by decide

/-- P1's steps 5 and 6; the gate opened (P2's steps 3 and 4) and closed (steps 7 and 8) before a RAM read; bank and mode
before a RAM write: every register at an end of its window, and every clause at an end of its own. -/
theorem witness_BankSwitchIsSeenAtOnce :
    ((zeros 0x10000 ⟨0, 1, 0, 0⟩ [.bus (busWord true 0x2000#16 0x05#8), .bus (busWord false 0x4000#16 0#8)]).NextIs
        (busWord true 0x2000#16 0x05#8) (.bus (busWord false 0x4000#16 0#8) :: []) ∧
        (zeros 0x10000 ⟨0, 1, 0, 0⟩ []).HasMbc1 (mbc1Cart 0x10000 [] ⟨0, 1, 0, 0⟩) ⟨0, 1, 0, 0⟩ ∧
        (0x2000#16).toNat < (mbc1Cart 0x10000 [] ⟨0, 1, 0, 0⟩).image.capacity ∧ 0x2000 ≤ (0x2000#16).toNat ∧
        (0x2000#16).toNat ≤ 0x3FFF ∧ (⟨0, 5, 0, 0⟩ : Mbc1Regs) = ⟨0, if 0x05#8 = 0x00#8 then 0x01#8 else 0x05#8, 0, 0⟩ ∧
        0x4000 ≤ (0x4000#16).toNat ∧ (0x4000#16).toNat ≤ 0x7FFF ∧
        (0x4000#16).toNat < (mbc1Cart 0x10000 [] ⟨0, 1, 0, 0⟩).image.capacity) ∧
      ((zeros 0x10000 ⟨0, 1, 0, 0⟩ [.bus (busWord true 0x1FFF#16 0x0A#8), .bus (busWord false 0xA000#16 0#8)]).NextIs
        (busWord true 0x1FFF#16 0x0A#8) (.bus (busWord false 0xA000#16 0#8) :: []) ∧ (0x1FFF#16).toNat ≤ 0x1FFF ∧
        0xA000 ≤ (0xA000#16).toNat ∧ (0xA000#16).toNat ≤ 0xBFFF ∧
        (0xA000#16).toNat < (mbc1Cart 0x10000 [] ⟨0, 1, 0, 0⟩).image.capacity ∧ (0x0A#8 : Byte) &&& 0x0F#8 = 0x0A#8 ∧
        (0x00#8 : Byte) &&& 0x0F#8 ≠ 0x0A#8) ∧
      ((zeros 0x10000 ⟨0x0A, 1, 0, 1⟩ [.bus (busWord true 0x5FFF#16 0x03#8), .bus (busWord true 0xBFFF#16 0x77#8)]).NextIs
        (busWord true 0x5FFF#16 0x03#8) (.bus (busWord true 0xBFFF#16 0x77#8) :: []) ∧ 0x4000 ≤ (0x5FFF#16).toNat ∧
        (0x5FFF#16).toNat ≤ 0x5FFF ∧ 0xA000 ≤ (0xBFFF#16).toNat ∧ (0xBFFF#16).toNat ≤ 0xBFFF ∧
        (0xBFFF#16).toNat < (mbc1Cart 0x10000 [] ⟨0x0A, 1, 0, 1⟩).image.capacity) ∧
      (0x6000 ≤ (0x6000#16).toNat ∧ (0x7FFF#16).toNat ≤ 0x7FFF) := by decide

theorem witness_EveryRegisterStateIsReachable :
    (zeros 0x6001 ⟨0, 1, 0, 0⟩ []).HasMbc1 (mbc1Cart 0x6001 [] ⟨0, 1, 0, 0⟩) ⟨0, 1, 0, 0⟩ ∧
      (zeros 0x6001 ⟨0, 1, 0, 0⟩ []).loading = none ∧ 0x6000 < (mbc1Cart 0x6001 [] ⟨0, 1, 0, 0⟩).image.capacity ∧
      (⟨0xFF, 0x01, 0xFF, 0xFF⟩ : Mbc1Regs).romb ≠ 0x00#8 := by decide

/-- The bytes at `HEADER_BASE` of an image made of a header are the header's. -/
theorem imageOf_header (h : Header) (i : Fin 80) : (imageOf h)[Config.headerBase + i.val]? = some h[i] := by
  have at_i : h.toList[i.val]? = some h[i] := by simp
  rw [imageOf, List.getElem?_append_right (by rw [List.length_replicate]; exact Nat.le_add_right _ _),
    List.length_replicate]
  exact (congrArg (h.toList[·]?) (Nat.add_sub_cancel_left Config.headerBase i.val)).trans at_i

theorem imageOf_length (h : Header) : (imageOf h).length = 0x150 := by
  rw [imageOf, List.length_append, List.length_replicate, Vector.length_toList]

/-- LD5's shortest image (0x150 bytes) with the header H0, from memory; and, from a stream, with the header of LD2, whose
type is NOBANK. -/
theorem witness_LoadBuildsTheDeliveredCartridge :
    ((noCart [.load (.memory (imageOf h0))]).loading = none ∧
        (noCart [.load (.memory (imageOf h0))]).queue = .load (.memory (imageOf h0)) :: [] ∧
        Config.headerBase + 80 ≤ (imageOf h0).length ∧
        (∀ (i : Fin 80), (imageOf h0)[Config.headerBase + i.val]? = some h0[i]) ∧
        h0.cks = h0[0x4D] ∧ variantOfType h0[0x47] = some .mbc1) ∧
      ((noCart [.load (.stream true true (imageOf h0Nobank))]).loading = none ∧
        (noCart [.load (.stream true true (imageOf h0Nobank))]).queue =
          .load (.stream true true (imageOf h0Nobank)) :: [] ∧
        Config.headerBase + 80 ≤ (imageOf h0Nobank).length ∧
        (∀ (i : Fin 80), (imageOf h0Nobank)[Config.headerBase + i.val]? = some h0Nobank[i]) ∧
        h0Nobank.cks = h0Nobank[0x4D] ∧ variantOfType h0Nobank[0x47] = some .nobank) :=
  ⟨⟨rfl, rfl, Nat.le_of_eq (imageOf_length _).symm, imageOf_header h0, by decide, by decide⟩,
    ⟨rfl, rfl, Nat.le_of_eq (imageOf_length _).symm, imageOf_header h0Nobank, by decide, by decide⟩⟩

/-- A stream that cannot be sought; LD5's 0x14F bytes; a wrong checksum (LD4); LD3's type 0x05 with its checksum. -/
theorem witness_LoadErrorsInOrder :
    ((noCart [.load (.stream true false [])]).loading = none ∧
        (noCart [.load (.stream true false [])]).queue = .load (.stream true false []) :: [] ∧ (true && false) = false) ∧
      (h0Image.take 0x14F).length < Config.headerBase + 80 ∧
      (Config.headerBase + 80 ≤ (imageOf (h0.set 0x4D 0xDF#8)).length ∧
        (∀ (i : Fin 80), (imageOf (h0.set 0x4D 0xDF#8))[Config.headerBase + i.val]? = some (h0.set 0x4D 0xDF#8)[i]) ∧
        Header.cks (h0.set 0x4D 0xDF#8) ≠ (h0.set 0x4D 0xDF#8)[0x4D]) ∧
      (Header.cks ((h0.set 0x47 0x05#8).set 0x4D 0xDA#8) = ((h0.set 0x47 0x05#8).set 0x4D 0xDA#8)[0x4D] ∧
        variantOfType ((h0.set 0x47 0x05#8).set 0x4D 0xDA#8)[0x47] = none) :=
  ⟨by decide, by rw [List.length_take]; exact Nat.lt_of_le_of_lt (Nat.min_le_left _ _) (by decide),
    ⟨Nat.le_of_eq (imageOf_length _).symm, fun i => imageOf_header (h0.set 0x4D 0xDF#8) i, by decide⟩, by decide⟩

theorem witness_LoadSharesNothingWithTheOldCartridge :
    ∃ t l, (noCart [.load (.memory h0Image)]).loading = none ∧
      (noCart [.load (.memory h0Image)]).queue = .load (.memory h0Image) :: [] ∧
      step (noCart [.load (.memory h0Image)]) = .next t ∧ t.loading = some l :=
  ⟨_, _, rfl, rfl, step_load_of_parse _ _ _ _ rfl h0Image_header, rfl⟩

theorem witness_StreamAndMemorySourcesAgree : (false = false ∨ true = false) ∧ (true = false ∨ false = false) := by decide

/-- H0, and H0 with the title's first two bytes exchanged. -/
theorem witness_ChecksumIgnoresTheOrder :
    ((List.finRange 25).map fun (i : Fin 25) => h0[0x34 + i.val]).Perm
      ((List.finRange 25).map fun (i : Fin 25) => ((h0.set 0x34 0x45#8).set 0x35 0x5A#8)[0x34 + i.val]) := by decide

theorem witness_ParseVerdict :
    (h0List.take 79).length ≠ 80 ∧ Header.cks (h0.set 0x4D 0xDF#8) ≠ (h0.set 0x4D 0xDF#8)[0x4D] ∧ h0.cks = h0[0x4D] := by
  decide

theorem witness_OneChangedByteIsRejected :
    parse h0.toList = .ok h0 ∧ 0x34 ≤ (0x34 : Fin 80).val ∧ (0x4D : Fin 80).val ≤ 0x4D ∧ 0x5B#8 ≠ h0[(0x34 : Fin 80)] ∧
      0xDF#8 ≠ h0[(0x4D : Fin 80)] := by decide

theorem witness_UncheckedBytesDoNotMatter : (0x33 : Fin 80).val < 0x34 ∧ 0x4E ≤ (0x4E : Fin 80).val := by decide

/-- A title that ends inside its field, and one that fills it. -/
theorem witness_TitleIsTheLongestAlphanumericPrefix :
    h0.title.length = 5 ∧ (Header.title (Vector.replicate 80 0x41#8)).length = 16 := by decide

theorem witness_HeaderFieldsDecode : h0[0x4B] = 0x33#8 ∧ (h0.set 0x4B 0x34#8)[0x4B] ≠ 0x33#8 := by decide

theorem witness_MetadataIsExposedOnlyAfterParse :
    ((withCart legalCart []).Inv ∧ (withCart legalCart []).exposedHeader = some Header.boot) ∧
      ∃ t, (withCart legalCart [.load (.memory [])]).loading = none ∧
        (withCart legalCart [.load (.memory [])]).queue = .load (.memory []) :: [] ∧
        step (withCart legalCart [.load (.memory [])]) = .next t ∧ t.reply = some (.err .formatError) :=
  ⟨⟨withCart_inv _ _ legalCart_inv, rfl⟩, ⟨_, rfl, rfl, rfl, rfl⟩⟩

theorem witness_AddressRangesAndSubtraction :
    0xA000 ≤ (0xA000#16).toNat ∧ (0x3FFF#16).toNat < 0x4000 := by decide

theorem witness_AddressAdditionIsExactOrNone : (0xFFFF#16).toNat + 0 ≤ 0xFFFF ∧ 0xFFFF < (0xFFFF#16).toNat + 1 := by decide

end Sys2Proof.Tests
end

section
/-! PROOFS. The steps that run no operation of the opcode table (spec/00_scope.md R7, spec/70_reset_and_hazards.md R211). -/

namespace Sys2Proof.Proofs

open Sys2Proof.Machine

/-- Settles O2: `step`'s law for each of the three things it can fetch that is no operation. -/
theorem stepWithoutAnOperation : Obligations.StepWithoutAnOperation := by
  unfold Obligations.StepWithoutAnOperation
  refine ⟨fun s hl hq => ?idle, fun s src rest hl hq => ?load, fun s t rest hnext hcart => ?noCartridge⟩
  case idle => exact step_idle s hl hq
  case load => exact step_load s src rest hl hq
  case noCartridge => exact step_noCartridge s t rest hnext hcart

end Sys2Proof.Proofs
end

section
/-! SUPPORT. Inversion lemmas of one step, by what it serves, and what a bus operation does to the image. -/

namespace Sys2Proof.Machine

/-- The selector's step, by whether the type byte is of an implemented variant: the cartridge of that variant, or none
(R170 to R178). -/
theorem step_selector_next (s t : State) (l : Loading) (hl : s.loading = some l) (h : step s = .next t) :
    (∃ ctrl : Controller, variantOfType l.hdr.typeByte = some ctrl.variant ∧ ctrl.legal = true ∧
      t = ((s.setCart (some { image := l.image, hdr := l.hdr, ctrl := ctrl })).setLoading none).setReply (some .ok)) ∨
    (variantOfType l.hdr.typeByte = none ∧
      t = (s.setLoading none).setReply (some (.err .unsupportedCartridgeError))) := by
  rw [step_selector s l hl] at h
  have built : ∀ ctrl, build ctrl s = .next t →
      t = ((s.setCart (some { image := l.image, hdr := l.hdr, ctrl := ctrl })).setLoading none).setReply (some .ok) := by
    intro ctrl hb
    obtain ⟨l', hl', ht⟩ := build_next ctrl s t hb
    rwa [Option.some.inj (hl.symm.trans hl')]
  rcases selector_cases l.hdr.typeByte s with ⟨hv, he⟩ | ⟨hv, he⟩ | ⟨hv, he⟩
  · exact .inl ⟨.nobank, hv, rfl, built _ (he ▸ h)⟩
  · exact .inl ⟨.mbc1 Mbc1Regs.afterLoad, hv, rfl, built _ (he ▸ h)⟩
  · obtain ⟨_, -, ht⟩ := reject_next s t (he ▸ h)
    exact .inr ⟨hv, ht⟩

/-- An image whose header slice is complete reaches to the end of the header (R130). -/
theorem headerSlice_room (bytes : List Byte) (h : (headerSlice bytes).length = 80) :
    Config.headerBase + 80 ≤ bytes.length := by
  simp only [headerSlice, List.length_take, List.length_drop] at h
  omega

/-- LOAD's first step: an empty slot, or an accepted header cut out of the delivered bytes (R211 steps 1 to 6). -/
theorem beginLoad_next (src : Source) (s t : State) (h : beginLoad src s = .next t) :
    (∃ k, t = ((s.setCart none).setLoading none).setReply (some (.err k))) ∨
    ∃ bytes hdr, src.deliver = some bytes ∧ Config.headerBase + 80 ≤ bytes.length ∧
      hdr.toList = headerSlice bytes ∧ hdr.Valid ∧
      t = ((s.setCart none).setLoading (some { image := Image.ofBytes bytes, hdr := hdr })).setReply none := by
  rcases beginLoad_cases src s with ⟨-, he⟩ | ⟨bytes, hd, ⟨k, -, he⟩ | ⟨hdr, hp, he⟩⟩
  · exact .inl ⟨_, raise_next _ _ _ (he ▸ h)⟩
  · exact .inl ⟨k, raise_next _ _ _ (he ▸ h)⟩
  · obtain ⟨hlen, hlist, hvalid⟩ := parse_ok _ _ hp
    rw [he] at h
    cases h
    exact .inr ⟨bytes, hdr, hd, headerSlice_room bytes hlen, hlist, hvalid, rfl⟩

/-- A transaction that is answered leaves what `BusStep` says, with its request taken from the queue. -/
theorem step_bus_next (s t : State) (w : BusWord) (rest : List Request) (hnext : s.NextIs w rest)
    (h : step s = .next t) : BusStep (s.setQueue rest) t := by
  cases hc : s.cart with
  | none => rw [step_noCartridge s w rest hnext hc] at h; cases h
  | some c =>
    rw [step_bus s c w rest hnext hc] at h
    exact exec_busStep _ _ _ _ (decodeBus_variant c.variant w) h

/-- An answered transaction keeps the cartridge's header, capacity and variant (R21, R23). -/
theorem step_bus_keeps (s t : State) (w : BusWord) (rest : List Request) (c : Cartridge) (hnext : s.NextIs w rest)
    (hc : s.cart = some c) (h : step s = .next t) :
    ∃ c', t.cart = some c' ∧ c'.hdr = c.hdr ∧ c'.image.capacity = c.image.capacity ∧ c'.variant = c.variant := by
  obtain ⟨-, -, c₀, c', hc₀, hc', hstep⟩ := step_bus_next s t w rest hnext h
  obtain rfl : c = c₀ := Option.some.inj (hc.symm.trans hc₀)
  exact ⟨c', hc', hstep.keeps⟩

/-! A property that every state `s` with another reply has is one the guard, the gate and a read of the image keep. -/

section
variable {P : State → Prop} {s t : State} (hreply : ∀ k, P (s.setReply (some k)))
include hreply

theorem raise_keeps (k : ErrorKind) (h : raise k s = .next t) : P t :=
  raise_next k s t h ▸ hreply _

theorem guarded_keeps (c : Cartridge) (a : Addr) (body : Host.Outcome State Fault Refusal)
    (h : guarded c a s body = .next t) (hbody : body = .next t → P t) : P t := by
  rcases guarded_next c a s t body h with ⟨-, hn⟩ | ⟨-, rfl⟩
  · exact hbody hn
  · exact hreply _

theorem gated_keeps (r : Mbc1Regs) (body : Host.Outcome State Fault Refusal) (h : gated r s body = .next t)
    (hbody : body = .next t → P t) : P t := by
  rcases gated_next r s t body h with ⟨-, hn⟩ | ⟨-, rfl⟩
  · exact hbody hn
  · exact hreply _

theorem readImage_keeps (c : Cartridge) (off : Nat) (h : readImage c off s = .next t) : P t := by
  rcases readImage_next c off s t h with ⟨-, rfl⟩ | ⟨-, rfl⟩ <;> exact hreply _

end

/-- The image of the slot's cartridge is the same in both states. -/
def SameImage (s t : State) : Prop := t.cart.map (·.image) = s.cart.map (·.image)

theorem SameImage.of_reply (s : State) (k : Reply) : SameImage s (s.setReply (some k)) := rfl

theorem SameImage.of_writeRegs (s t : State) (c : Cartridge) (r : Mbc1Regs) (hc : s.cart = some c)
    (h : writeRegs c r s = .next t) : SameImage s t := by
  rw [writeRegs_next c r s t h]
  simp [SameImage, hc]

/-- Every bus operation but WR.RAM keeps the image (R22, R63). -/
theorem exec_sameImage (i : Instr) (v : Variant) (s t : State) (hv : i.variant? = some v)
    (hi : ∀ a d, i ≠ .wrRam a d) (h : exec i s = .next t) : SameImage s t := by
  have hreply := SameImage.of_reply s
  cases i
  case rdRom0 a | rdRomx a =>
    obtain ⟨c, r, -, hn⟩ := onMbc1_next s t _ h
    exact guarded_keeps hreply c a _ hn fun hn => readImage_keeps hreply c _ hn
  case rdRam a =>
    obtain ⟨c, r, -, hn⟩ := onMbc1_next s t _ h
    exact guarded_keeps hreply c a _ hn fun hn =>
      gated_keeps hreply r _ hn fun hn => readImage_keeps hreply c _ hn
  case wrRamen a d | wrRomb a d | wrRamb a d | wrMode a d =>
    obtain ⟨c, r, ⟨hc, -⟩, hn⟩ := onMbc1_next s t _ h
    exact guarded_keeps hreply c a _ hn fun hn => .of_writeRegs s t c _ hc hn
  case rdUnmapped8 a | rdUnmappedC a | wrUnmapped8 a d | wrUnmappedC a d =>
    obtain ⟨c, r, -, hn⟩ := onMbc1_next s t _ h
    exact raise_keeps hreply _ hn
  case nbRdRom a =>
    obtain ⟨c, -, hn⟩ := onNobank_next s t _ h
    exact readImage_keeps hreply c _ hn
  case nbRdUnmapped a | nbWr a d =>
    obtain ⟨c, -, hn⟩ := onNobank_next s t _ h
    exact raise_keeps hreply _ hn
  case wrRam a d => exact absurd rfl (hi a d)
  all_goals cases hv

/-- WR.RAM sets one image byte through the open gate, or its reply is an error and nothing else changes (R164). -/
theorem execWrRam_next (a : Addr) (d : Byte) (s t : State) (h : execWrRam a d s = .next t) :
    (∃ c r, s.HasMbc1 c r ∧ ramOn r = true ∧
      t = (s.setCart (some (c.setImage (c.image.write (ramOff r a) d)))).setReply (some .ok)) ∨
    ∃ k, t = s.setReply (some (.err k)) := by
  obtain ⟨c, r, hc, hn⟩ := onMbc1_next s t _ h
  rcases guarded_next c a s t _ hn with ⟨-, hn⟩ | ⟨-, ht⟩
  · rcases gated_next r s t _ hn with ⟨hon, hn⟩ | ⟨-, ht⟩
    · rcases writeImage_next c _ d s t hn with ⟨-, ht⟩ | ⟨-, ht⟩
      · exact .inl ⟨c, r, hc, hon, ht⟩
      · exact .inr ⟨_, ht⟩
    · exact .inr ⟨_, ht⟩
  · exact .inr ⟨_, ht⟩

/-- An open gate is the low nibble 0xA of `RAMEN` (R56). -/
theorem ramOn_iff (r : Mbc1Regs) : ramOn r = true ↔ r.ramen &&& 0x0F#8 = 0x0A#8 := decide_eq_true_iff

end Sys2Proof.Machine
end

section
/-! SUPPORT. The invariant, part by part: what a transaction, the selector and the beginning of a LOAD make of it. -/

namespace Sys2Proof.Machine

/-- A slot with no cartridge and no load under way is legal. -/
theorem State.Inv.of_empty (s : State) (hc : s.cart = none) (hl : s.loading = none) : s.Inv where
  cart _ h := by rw [hc] at h; cases h
  loading _ h := by rw [hl] at h; cases h
  exclusive _ _ := hc

/-- A legal cartridge with no load under way is a legal slot. -/
theorem State.Inv.of_cart (s : State) (c : Cartridge) (hc : s.cart = some c) (hl : s.loading = none) (hinv : c.Inv) :
    s.Inv where
  cart _ h := Option.some.inj (hc.symm.trans h) ▸ hinv
  loading _ h := by rw [hl] at h; cases h
  exclusive _ h := by rw [hl] at h; cases h

/-- A legal load under way in an empty slot is a legal slot. -/
theorem State.Inv.of_loading (s : State) (l : Loading) (hc : s.cart = none) (hl : s.loading = some l) (hinv : l.Inv) :
    s.Inv where
  cart _ h := by rw [hc] at h; cases h
  loading _ h := Option.some.inj (hl.symm.trans h) ▸ hinv
  exclusive _ _ := hc

/-- What the selector builds of a legal load is legal. -/
theorem Loading.Inv.build (l : Loading) (ctrl : Controller) (h : l.Inv)
    (hv : variantOfType l.hdr.typeByte = some ctrl.variant) (hr : ctrl.legal = true) :
    Cartridge.Inv { image := l.image, hdr := l.hdr, ctrl := ctrl } :=
  ⟨h.image, h.room, h.header, hv, hr⟩

/-- A transaction keeps a cartridge legal. -/
theorem CartStep.inv (c c' : Cartridge) (hstep : CartStep c c') (h : c.Inv) : c'.Inv := by
  rcases hstep with rfl | ⟨r, r', hr, hromb, rfl⟩ | ⟨off, d, hoff, rfl⟩
  · exact h
  · have hvar : (c.setRegs r').variant = c.variant := by simp [Cartridge.variant, hr]
    have hlegal : r.romb ≠ 0x00#8 := by simpa [Controller.legal, hr] using h.regs
    exact ⟨h.image, h.room, h.header, hvar ▸ h.variant, by simpa [Controller.legal] using hromb hlegal⟩
  · exact ⟨Image.write_wf _ off d h.image hoff, h.room, h.header, h.variant, h.regs⟩

end Sys2Proof.Machine
end

section
/-! PROOFS. What every step keeps: the invariant, the variant, the header and the image (spec/10_state.md). -/

namespace Sys2Proof.Proofs

open Sys2Proof.Machine

/-- Settles O33: the boot cartridge is a legal one, by evaluation, and no load is under way. -/
theorem resetHasTheInvariant : Obligations.ResetHasTheInvariant :=
  .of_cart State.reset Cartridge.boot rfl rfl ⟨by decide, by decide, by decide, by decide, by decide⟩

/-- Settles O32, by what the step serves. -/
theorem stepKeepsTheInvariant : Obligations.StepKeepsTheInvariant := by
  intro s t hinv h
  rcases state_cases s with ⟨l, hl⟩ | ⟨hl, hq⟩ | ⟨hl, src, rest, hq⟩ | ⟨w, rest, hnext⟩
  · have hlinv := hinv.loading l hl
    rcases step_selector_next s t l hl h with ⟨ctrl, hv, hr, rfl⟩ | ⟨-, rfl⟩
    · exact .of_cart _ _ rfl rfl (hlinv.build l ctrl hv hr)
    · exact .of_empty _ (hinv.exclusive l hl) rfl
  · rw [step_idle s hl hq] at h
    cases h
    exact hinv
  · rw [step_load s src rest hl hq] at h
    rcases beginLoad_next src _ t h with ⟨k, rfl⟩ | ⟨bytes, hdr, -, hroom, -, hvalid, rfl⟩
    · exact .of_empty _ rfl rfl
    · exact .of_loading _ _ rfl rfl ⟨Image.ofBytes_wf bytes, hroom, hvalid⟩
  · obtain ⟨hloading, -, c, c', hc, hc', hstep⟩ := step_bus_next s t w rest hnext h
    exact .of_cart t c' hc' (hloading.trans hnext.1) (hstep.inv c c' (hinv.cart c hc))

/-- Settles O27: every other bus operation keeps the image, and WR.RAM sets a byte only where the gate is open. -/
theorem imageChangesOnlyThroughTheOpenGate : Obligations.ImageChangesOnlyThroughTheOpenGate := by
  intro i v s t c c' h hv hc hc' hne
  by_cases hi : ∃ a d, i = .wrRam a d
  · obtain ⟨a, d, rfl⟩ := hi
    rcases execWrRam_next a d s t h with ⟨c₀, r, ⟨hc₀, hr⟩, hon, rfl⟩ | ⟨k, rfl⟩
    · obtain rfl : c = c₀ := Option.some.inj (hc.symm.trans hc₀)
      obtain rfl := Option.some.inj hc'
      exact ⟨rfl, rfl, rfl, rfl, rfl, a, d, r, rfl, hr, (ramOn_iff r).mp hon⟩
    · obtain rfl : c = c' := Option.some.inj (hc.symm.trans hc')
      exact absurd rfl hne
  · have hsame : SameImage s t := exec_sameImage i v s t hv (fun a d hw => hi ⟨a, d, hw⟩) h
    exact absurd (by simpa [SameImage, hc, hc'] using hsame) hne

/-- Settles O35: the selector builds the variant of the type byte, and an answered transaction keeps the variant. -/
theorem variantIsFixedByTheTypeByte : Obligations.VariantIsFixedByTheTypeByte := by
  refine ⟨fun s t l hl h hok => ?selector, fun s t w rest c hnext hc h => ?transaction⟩
  case selector =>
    rcases step_selector_next s t l hl h with ⟨ctrl, hv, -, rfl⟩ | ⟨-, rfl⟩
    · exact ⟨_, rfl, rfl, hv⟩
    · cases hok
  case transaction =>
    obtain ⟨c', hc', -, -, hv⟩ := step_bus_keeps s t w rest c hnext hc h
    exact ⟨step_bus s c w rest hnext hc, c', hc', hv⟩

/-- Settles O36: an accepted header is the header slice of the delivered bytes, the selector hands it on, and an answered
transaction keeps it. -/
theorem headerIsASnapshot : Obligations.HeaderIsASnapshot := by
  refine ⟨fun s t src bytes rest l hl hq hd h ht => ?load, fun s t l c hl h hc hnone => ?selector,
    fun s t w rest c c' hnext hc h hc' => ?transaction⟩
  case load =>
    rw [step_load s src rest hl hq] at h
    rcases beginLoad_next src _ t h with ⟨k, rfl⟩ | ⟨bytes', hdr, hd', hroom, hlist, -, rfl⟩
    · cases ht
    · obtain rfl : bytes = bytes' := Option.some.inj (hd.symm.trans hd')
      obtain rfl := Option.some.inj ht
      refine ⟨hroom, fun i => ?_⟩
      calc bytes[Config.headerBase + i.val]? = (headerSlice bytes)[i.val]? := by simp [headerSlice]
        _ = hdr.toList[i.val]? := by rw [hlist]
        _ = some hdr[i] := by simp
  case selector =>
    rcases step_selector_next s t l hl h with ⟨ctrl, -, -, rfl⟩ | ⟨-, rfl⟩
    · exact Option.some.inj hc ▸ rfl
    · cases hnone.symm.trans hc
  case transaction =>
    obtain ⟨c₁, hc₁, hhdr, hcap, -⟩ := step_bus_keeps s t w rest c hnext hc h
    obtain rfl : c₁ = c' := Option.some.inj (hc₁.symm.trans hc')
    exact ⟨hhdr, hcap⟩

end Sys2Proof.Proofs
end

section
/-! SUPPORT. Two MBC1 cartridges that differ in register bits no rule reads (R28), run side by side. -/

namespace Sys2Proof.Machine

/-- Registers with the same visible bits, register by register (R28). -/
theorem visible_eq_iff (r r' : Mbc1Regs) : r'.visible = r.visible ↔
    r'.ramen &&& 0x0F#8 = r.ramen &&& 0x0F#8 ∧ r'.romb &&& 0x1F#8 = r.romb &&& 0x1F#8 ∧
      r'.ramb &&& 0x03#8 = r.ramb &&& 0x03#8 ∧ (r'.mode = 0x00#8 ↔ r.mode = 0x00#8) := by
  simp [Mbc1Regs.visible]

/-! The bits that no rule reads take part in no condition and in no offset, and writing a register keeps the registers
alike. -/

section
variable {r r' : Mbc1Regs} (h : r'.visible = r.visible)
include h

theorem ramOn_of_visible : ramOn r' = ramOn r := by
  obtain ⟨hramen, -⟩ := (visible_eq_iff r r').mp h
  rw [ramOn, ramOn, hramen]

theorem romMode_of_visible : romMode r' = romMode r := by
  obtain ⟨-, -, -, hmode⟩ := (visible_eq_iff r r').mp h
  simp only [romMode, hmode]

theorem rombBits_of_visible : rombBits r' = rombBits r := by
  obtain ⟨-, hromb, -⟩ := (visible_eq_iff r r').mp h
  rw [rombBits, rombBits, hromb]

theorem rambBits_of_visible : rambBits r' = rambBits r := by
  obtain ⟨-, -, hramb, -⟩ := (visible_eq_iff r r').mp h
  exact congrArg BitVec.toNat hramb

theorem romxOff_of_visible (a : Addr) : romxOff r' a = romxOff r a := by
  simp only [romxOff, romIdx, romMode_of_visible h, rombBits_of_visible h, rambBits_of_visible h]

theorem ramOff_of_visible (a : Addr) : ramOff r' a = ramOff r a := by
  simp only [ramOff, romMode_of_visible h, rambBits_of_visible h]

theorem visible_setRamen (d : Byte) : (r'.setRamen d).visible = (r.setRamen d).visible := by
  obtain ⟨-, hromb, hramb, hmode⟩ := (visible_eq_iff r r').mp h
  exact (visible_eq_iff _ _).mpr ⟨rfl, hromb, hramb, hmode⟩

theorem visible_setRomb (d : Byte) : (r'.setRomb d).visible = (r.setRomb d).visible := by
  obtain ⟨hramen, -, hramb, hmode⟩ := (visible_eq_iff r r').mp h
  exact (visible_eq_iff _ _).mpr ⟨hramen, rfl, hramb, hmode⟩

theorem visible_setRamb (d : Byte) : (r'.setRamb d).visible = (r.setRamb d).visible := by
  obtain ⟨hramen, hromb, -, hmode⟩ := (visible_eq_iff r r').mp h
  exact (visible_eq_iff _ _).mpr ⟨hramen, hromb, rfl, hmode⟩

theorem visible_setMode (d : Byte) : (r'.setMode d).visible = (r.setMode d).visible := by
  obtain ⟨hramen, hromb, hramb, -⟩ := (visible_eq_iff r r').mp h
  exact (visible_eq_iff _ _).mpr ⟨hramen, hromb, hramb, Iff.rfl⟩

end

/-- The slot holding `c` with the registers `r`. -/
def State.withRegs (s : State) (c : Cartridge) (r : Mbc1Regs) : State := s.setCart (some (c.setRegs r))

theorem State.withRegs_self (s : State) (c : Cartridge) (r : Mbc1Regs) (h : s.HasMbc1 c r) : s.withRegs c r = s := by
  obtain ⟨hc, hr⟩ := h
  rw [State.withRegs, Cartridge.setRegs, ← hr, ← hc, State.setCart_self]

/-- Two outcomes are next states with MBC1 cartridges that differ in register bits no rule reads, and in nothing else. -/
def Alike (o o' : Host.Outcome State Fault Refusal) : Prop :=
  ∃ t c r r', r'.visible = r.visible ∧ o = .next (State.withRegs t c r) ∧ o' = .next (State.withRegs t c r')

section
variable {s : State} {c : Cartridge} {r r' : Mbc1Regs} {b b' e e' : Host.Outcome State Fault Refusal}

theorem Alike.ite {p q : Prop} [Decidable p] [Decidable q] (hpq : p ↔ q) (hb : Alike b b') (he : Alike e e') :
    Alike (if p then b else e) (if q then b' else e') := by
  by_cases hp : p
  · rwa [if_pos hp, if_pos (hpq.mp hp)]
  · rwa [if_neg hp, if_neg (mt hpq.mpr hp)]

theorem writeRegs_alike (h : r'.visible = r.visible) (q q' : Mbc1Regs) :
    Alike (writeRegs (c.setRegs q) r (s.withRegs c q)) (writeRegs (c.setRegs q') r' (s.withRegs c q')) :=
  ⟨s.setReply (some .ok), c, r, r', h, rfl, rfl⟩

variable (h : r'.visible = r.visible)
include h

theorem answer_alike (k : Reply) : Alike (answer k (s.withRegs c r)) (answer k (s.withRegs c r')) :=
  ⟨s.setReply (some k), c, r, r', h, rfl, rfl⟩

theorem guarded_alike (a : Addr) (hb : Alike b b') :
    Alike (guarded (c.setRegs r) a (s.withRegs c r) b) (guarded (c.setRegs r') a (s.withRegs c r') b') :=
  .ite Iff.rfl hb (answer_alike h _)

theorem gated_alike (hb : Alike b b') : Alike (gated r (s.withRegs c r) b) (gated r' (s.withRegs c r') b') :=
  .ite (by rw [ramOn_of_visible h]) hb (answer_alike h _)

theorem readImage_alike {off off' : Nat} (ho : off' = off) :
    Alike (readImage (c.setRegs r) off (s.withRegs c r)) (readImage (c.setRegs r') off' (s.withRegs c r')) := by
  subst ho
  exact .ite Iff.rfl (answer_alike h _) (answer_alike h _)

theorem writeImage_alike {off off' : Nat} (ho : off' = off) (d : Byte) :
    Alike (writeImage (c.setRegs r) off d (s.withRegs c r)) (writeImage (c.setRegs r') off' d (s.withRegs c r')) := by
  subst ho
  refine .ite Iff.rfl ?_ (answer_alike h _)
  exact answer_alike (c := c.setImage (c.image.write off' d)) h .ok

/-- Every MBC1 operation treats two such cartridges alike (R28). -/
theorem exec_alike (i : Instr) (hi : i.variant? = some .mbc1) :
    Alike (exec i (s.withRegs c r)) (exec i (s.withRegs c r')) := by
  cases i
  case rdRom0 a => exact guarded_alike h a (readImage_alike h rfl)
  case rdRomx a => exact guarded_alike h a (readImage_alike h (romxOff_of_visible h a))
  case rdRam a => exact guarded_alike h a (gated_alike h (readImage_alike h (ramOff_of_visible h a)))
  case wrRam a d => exact guarded_alike h a (gated_alike h (writeImage_alike h (ramOff_of_visible h a) d))
  case wrRamen a d => exact guarded_alike h a (writeRegs_alike (visible_setRamen h d) r r')
  case wrRomb a d => exact guarded_alike h a (writeRegs_alike (visible_setRomb h (coerceRomb d)) r r')
  case wrRamb a d => exact guarded_alike h a (writeRegs_alike (visible_setRamb h d) r r')
  case wrMode a d => exact guarded_alike h a (writeRegs_alike (visible_setMode h d) r r')
  case rdUnmapped8 a | rdUnmappedC a | wrUnmapped8 a d | wrUnmappedC a d =>
    exact answer_alike h (.err .addressError)
  all_goals cases hi

/-- Two such slots serve the next transaction alike. -/
theorem step_alike (w : BusWord) (rest : List Request) (hnext : s.NextIs w rest) :
    Alike (step (s.withRegs c r)) (step (s.withRegs c r')) := by
  rw [step_bus (s.withRegs c r) (c.setRegs r) w rest hnext rfl,
    step_bus (s.withRegs c r') (c.setRegs r') w rest hnext rfl]
  exact exec_alike (s := s.setQueue rest) h _ (decodeBus_variant .mbc1 w)

end

end Sys2Proof.Machine
end

section
/-! PROOFS. Register bits that no rule reads are unobservable (spec/10_state.md R28). -/

namespace Sys2Proof.Proofs

open Sys2Proof.Machine

/-- Settles O41: the two steps are `Alike`, so their next states differ in the cartridge's registers only. -/
theorem unusedRegisterBitsAreUnobservable : Obligations.UnusedRegisterBitsAreUnobservable := by
  intro s c r r' w rest hnext hc hv
  have halike : Alike (step (s.withRegs c r)) (step (s.withRegs c r')) := step_alike hv w rest hnext
  rw [s.withRegs_self c r hc] at halike
  obtain ⟨t, c₁, r₁, r₁', hv₁, ht, ht'⟩ := halike
  exact ⟨t.withRegs c₁ r₁, t.withRegs c₁ r₁', c₁.setRegs r₁, r₁, r₁', ht, ht', rfl, rfl, rfl, ⟨rfl, rfl⟩, rfl, hv₁⟩

end Sys2Proof.Proofs
end

section
/-! SUPPORT. What an MBC1 transaction answers once it is known whether the capacity guard (R53) and the RAM gate (R56)
let it pass, and the reads of the two ROM windows as one. -/

namespace Sys2Proof.Machine

/-- A transaction on an MBC1 cartridge runs the operation that the MBC1 table gives (R92). -/
theorem step_mbc1 (s : State) (c : Cartridge) (r : Mbc1Regs) (w : BusWord) (rest : List Request)
    (hnext : s.NextIs w rest) (hc : s.HasMbc1 c r) : step s = exec (decodeBus .mbc1 w) (s.setQueue rest) := by
  obtain ⟨hcart, hctrl⟩ := hc
  rw [step_bus s c w rest hnext hcart, Cartridge.variant, hctrl, Controller.variant_mbc1]

/-- Two requests served one after the other (R64). -/
theorem run_two (s t u : State) (h : step s = .next t) (h' : step t = .next u) : run 2 s = .next u := by
  rw [run_succ 1 s t h, run_one, h']

theorem guarded_of_lt (c : Cartridge) (a : Addr) (s : State) (body : Host.Outcome State Fault Refusal)
    (h : a.toNat < c.image.capacity) : guarded c a s body = body :=
  if_pos ((capOk_iff _ _).mpr h)

theorem guarded_of_le (c : Cartridge) (a : Addr) (s : State) (body : Host.Outcome State Fault Refusal)
    (h : c.image.capacity ≤ a.toNat) : guarded c a s body = raise .addressError s :=
  if_neg (by rw [capOk_iff]; omega)

theorem gated_of_open (r : Mbc1Regs) (s : State) (body : Host.Outcome State Fault Refusal)
    (h : r.ramen &&& 0x0F#8 = 0x0A#8) : gated r s body = body :=
  if_pos ((ramOn_iff r).mpr h)

/-! At or above `CAPACITY` the guard answers in every window that has one, and the unmapped windows answer the same
error (R53). -/

section
variable {s : State} {c : Cartridge} {r : Mbc1Regs} {a : Addr} (hc : s.HasMbc1 c r)
include hc

theorem onMbc1_raise (k : ErrorKind) : onMbc1 s (fun _ _ => raise k s) = raise k s := onMbc1_eq s c r hc _

variable (ha : c.image.capacity ≤ a.toNat)
include ha

theorem onMbc1_guarded_of_le (body : Cartridge → Mbc1Regs → Host.Outcome State Fault Refusal) :
    onMbc1 s (fun c r => guarded c a s (body c r)) = raise .addressError s := by
  rw [onMbc1_eq s c r hc, guarded_of_le c a s _ ha]

theorem exec_decodeMbc1Read_of_le : exec (decodeMbc1Read a) s = raise .addressError s := by
  rw [decodeMbc1Read_eq]
  split_ifs
  · exact onMbc1_guarded_of_le hc ha _
  · exact onMbc1_guarded_of_le hc ha _
  · exact onMbc1_raise hc _
  · exact onMbc1_guarded_of_le hc ha _
  · exact onMbc1_raise hc _

theorem exec_decodeMbc1Write_of_le (d : Byte) : exec (decodeMbc1Write a d) s = raise .addressError s := by
  rw [decodeMbc1Write_eq]
  split_ifs
  · exact onMbc1_guarded_of_le hc ha _
  · exact onMbc1_guarded_of_le hc ha _
  · exact onMbc1_guarded_of_le hc ha _
  · exact onMbc1_guarded_of_le hc ha _
  · exact onMbc1_raise hc _
  · exact onMbc1_guarded_of_le hc ha _
  · exact onMbc1_raise hc _

end

/-- Whatever a word decodes to on an MBC1 cartridge, at or above `CAPACITY` it raises `AddressError` (R53). -/
theorem exec_decodeBus_of_le (s : State) (c : Cartridge) (r : Mbc1Regs) (w : BusWord) (hc : s.HasMbc1 c r)
    (h : c.image.capacity ≤ (BusWord.addr w).toNat) : exec (decodeBus .mbc1 w) s = raise .addressError s := by
  rw [BusWord.eq_busWord w]
  cases BusWord.isWrite w with
  | false => rw [decodeBus_mbc1_read]; exact exec_decodeMbc1Read_of_le hc h
  | true => rw [decodeBus_mbc1_write]; exact exec_decodeMbc1Write_of_le hc h _

/-- What a guarded read of the image offset `off` at the bus address `a` replies (R53, R58). -/
def Image.readReply (img : Image) (a : Addr) (off : Nat) : Reply :=
  if a.toNat < img.capacity ∧ off < img.capacity then .data (img.read off) else .err .addressError

theorem Image.readReply_of_lt (img : Image) (a : Addr) (off : Nat) (ha : a.toNat < img.capacity)
    (hoff : off < img.capacity) : img.readReply a off = .data (img.read off) :=
  if_pos ⟨ha, hoff⟩

/-- The byte written at an offset is what a guarded read of that offset replies. -/
theorem Image.readReply_write (img : Image) (a : Addr) (off : Nat) (d : Byte) (hwf : img.wf = true)
    (ha : a.toNat < img.capacity) (hoff : off < img.capacity) : (img.write off d).readReply a off = .data d := by
  rw [Image.readReply_of_lt (img.write off d) a off ha hoff, Image.read_write img off d off hwf, if_pos rfl]

theorem guarded_readImage (c : Cartridge) (a : Addr) (off : Nat) (s : State) :
    guarded c a s (readImage c off s) = answer (c.image.readReply a off) s := by
  by_cases ha : a.toNat < c.image.capacity
  · rw [guarded_of_lt c a s _ ha]
    by_cases hoff : off < c.image.capacity
    · rw [readImage, if_pos hoff, Image.readReply_of_lt _ _ _ ha hoff]
    · rw [readImage, if_neg hoff, Image.readReply, if_neg (fun h => hoff h.2), raise]
  · rw [guarded_of_le c a s _ (by omega), Image.readReply, if_neg (fun h => ha h.1), raise]

/-- The image offset that the ROM windows show at a bus address below 0x8000 (R54, R55). -/
def romOff (r : Mbc1Regs) (a : Addr) : Nat := if a.toNat ≤ 0x3FFF then rom0Off a else romxOff r a

/-- No register takes part in the offset of the fixed window (R54, R70). -/
theorem romOff_fixed (r : Mbc1Regs) (a : Addr) (h : a.toNat ≤ 0x3FFF) : romOff r a = a.toNat := by
  rw [romOff, if_pos h, rom0Off]

theorem romOff_switchable (r : Mbc1Regs) (a : Addr) (h : 0x4000 ≤ a.toNat) :
    romOff r a = romIdx r * 0x4000 + (a.toNat - 0x4000) := by
  rw [romOff, if_neg (by omega), romxOff_eq r a h]

/-- A read of either ROM window replies the image byte that the window shows there, and changes nothing else. -/
theorem step_readRom (s : State) (c : Cartridge) (r : Mbc1Regs) (a : Addr) (d : Byte) (rest : List Request)
    (hnext : s.NextIs (busWord false a d) rest) (hc : s.HasMbc1 c r) (ha : a.toNat ≤ 0x7FFF) :
    step s = answer (c.image.readReply a (romOff r a)) (s.setQueue rest) := by
  rw [step_mbc1 s c r _ rest hnext hc, decodeBus_mbc1_read, decodeMbc1Read_eq, ← guarded_readImage, romOff]
  by_cases hfix : a.toNat ≤ 0x3FFF
  · rw [if_pos hfix, if_pos hfix]
    exact onMbc1_eq (s.setQueue rest) c r hc _
  · rw [if_neg hfix, if_neg hfix, if_pos ha]
    exact onMbc1_eq (s.setQueue rest) c r hc _

end Sys2Proof.Machine
end

section
/-! SUPPORT. The RAM window: its offsets lie in the image (R58), what a write through the open gate leaves (R164), and
where the ROM windows show the byte (R59). -/

namespace Sys2Proof.Machine

section
variable {r : Mbc1Regs} {a : Addr} (hlo : 0xA000 ≤ a.toNat)
include hlo

theorem ramOff_of_mode_zero (hmode : r.mode = 0x00#8) : ramOff r a = a.toNat := by
  rw [ramOff_eq r a hlo, if_pos hmode]

theorem ramOff_of_mode_ne (hmode : r.mode ≠ 0x00#8) :
    ramOff r a = (r.ramb &&& 0x03#8).toNat * 0x2000 + (a.toNat - 0xA000) := by
  rw [ramOff_eq r a hlo, if_neg hmode]
  rfl

variable (hhi : a.toNat ≤ 0xBFFF)
include hhi

/-- Four banks of 8 KiB: the first 32 KiB of the image (R57, D3). -/
theorem ramOff_lt_of_mode_ne (hmode : r.mode ≠ 0x00#8) : ramOff r a < 0x8000 := by
  have hbank : (r.ramb &&& 0x03#8).toNat < 4 := rambBits_lt r
  rw [ramOff_of_mode_ne hlo hmode]
  omega

/-- An address of the RAM window that passes the guard has an offset that does (R58): the address itself, or an offset
below every address of the window. -/
theorem ramOff_lt_capacity (img : Image) (hcap : a.toNat < img.capacity) : ramOff r a < img.capacity := by
  by_cases hmode : r.mode = 0x00#8
  · rwa [ramOff_of_mode_zero hlo hmode]
  · have := ramOff_lt_of_mode_ne hlo hhi hmode
    omega

/-- A write of the RAM window decodes to WR.RAM (R85). -/
theorem decodeMbc1Write_ram (d : Byte) : decodeMbc1Write a d = .wrRam a d := by
  rw [decodeMbc1Write_eq, if_neg (by omega), if_neg (by omega), if_neg (by omega), if_neg (by omega),
    if_neg (by omega), if_pos hhi]

/-- A write of the RAM window behind the guard and through the open gate sets the byte at its offset (R164). -/
theorem step_writeRam (s : State) (c : Cartridge) (d : Byte) (rest : List Request)
    (hnext : s.NextIs (busWord true a d) rest) (hc : s.HasMbc1 c r) (hcap : a.toNat < c.image.capacity)
    (hopen : r.ramen &&& 0x0F#8 = 0x0A#8) :
    step s = .next (((s.setQueue rest).setCart (some (c.setImage (c.image.write (ramOff r a) d)))).setReply
      (some .ok)) := by
  calc step s = execWrRam a d (s.setQueue rest) := by
        rw [step_mbc1 s c r _ rest hnext hc, decodeBus_mbc1_write, decodeMbc1Write_ram hlo hhi, exec]
    _ = writeImage c (ramOff r a) d (s.setQueue rest) := by
        rw [execWrRam, onMbc1_eq (s.setQueue rest) c r hc, guarded_of_lt _ _ _ _ hcap, gated_of_open _ _ _ hopen]
    _ = _ := by rw [writeImage, if_pos (ramOff_lt_capacity hlo hhi c.image hcap), answer]

/-! The rows of R59's table: a bus address of the ROM windows that shows the image byte a RAM address reaches. -/

/-- RAM banks 0 and 1 are what the fixed window shows. -/
theorem romOff_eq_ramOff_fixed (b : Addr) (hmode : r.mode ≠ 0x00#8) (hbank : (r.ramb &&& 0x03#8).toNat < 2)
    (hb : b.toNat = (r.ramb &&& 0x03#8).toNat * 0x2000 + (a.toNat - 0xA000)) :
    b.toNat ≤ 0x7FFF ∧ romOff r b = ramOff r a := by
  refine ⟨by omega, ?_⟩
  rw [romOff_fixed r b (by omega), ramOff_of_mode_ne hlo hmode, hb]

/-- RAM banks 2 and 3 are what the switchable window shows of ROM bank 1. -/
theorem romOff_eq_ramOff_switchable (b : Addr) (hmode : r.mode ≠ 0x00#8) (hbank : 2 ≤ (r.ramb &&& 0x03#8).toNat)
    (hromb : r.romb &&& 0x1F#8 = 0x01#8)
    (hb : b.toNat = (r.ramb &&& 0x03#8).toNat * 0x2000 + (a.toNat - 0xA000)) :
    b.toNat ≤ 0x7FFF ∧ romOff r b = ramOff r a := by
  have hbank4 : (r.ramb &&& 0x03#8).toNat < 4 := rambBits_lt r
  have hidx : romIdx r = 1 := by rw [romIdx_eq, if_neg hmode, rombBits, hromb]; rfl
  refine ⟨by omega, ?_⟩
  rw [romOff_switchable r b (by omega), ramOff_of_mode_ne hlo hmode, hidx]
  omega

/-- The RAM of ROM banking mode is what the switchable window shows as the upper half of ROM bank 2. -/
theorem romOff_eq_ramOff_romMode (b : Addr) (hmode : r.mode = 0x00#8) (hramb : r.ramb &&& 0x03#8 = 0x00#8)
    (hromb : r.romb &&& 0x1F#8 = 0x02#8) (hb : b.toNat = a.toNat - 0x4000) :
    b.toNat ≤ 0x7FFF ∧ romOff r b = ramOff r a := by
  have hramb0 : rambBits r = 0 := congrArg BitVec.toNat hramb
  have hidx : romIdx r = 2 := by rw [romIdx_eq, if_pos hmode, hramb0, rombBits, hromb]; rfl
  refine ⟨by omega, ?_⟩
  rw [romOff_switchable r b (by omega), ramOff_of_mode_zero hlo hmode, hidx]
  omega

end

end Sys2Proof.Machine
end

section
/-! PROOFS. The capacity guard, and one image behind the RAM and the ROM windows (spec/20_memory.md R53 to R59, R70). -/

namespace Sys2Proof.Proofs

open Sys2Proof.Machine

/-- Settles O30: the guard's condition is `A < CAPACITY`, and every operation an MBC1 word decodes to raises
`AddressError` where it fails. -/
theorem capacityGuardComesFirst : Obligations.CapacityGuardComesFirst := by
  refine ⟨fun s c r w rest hnext hc hcap => ?atOrAbove, capOk_iff, fun img a hcap => ?full⟩
  case atOrAbove =>
    rw [step_mbc1 s c r w rest hnext hc]
    exact exec_decodeBus_of_le (s.setQueue rest) c r w hc hcap
  case full => exact (capOk_iff img a).mpr (Nat.lt_of_lt_of_le a.isLt hcap)

/-- Settles O38: RAM banking reaches the first 32 KiB only, and ROM banking the address that has passed the guard. -/
theorem ramOffsetsStayInTheImage : Obligations.RamOffsetsStayInTheImage := by
  refine fun img r a hlo hhi => ⟨fun hcap => ?passed, fun hsmall => ?small⟩
  case passed => exact ⟨ramOff_lt_capacity hlo hhi img ((capOk_iff img a).mp hcap), ramOff_lt_of_mode_ne hlo hhi⟩
  case small =>
    rw [Bool.eq_false_iff, ne_eq, capOk_iff]
    omega

/-- Settles O40: both reads reply what the image holds at the address itself. -/
theorem fixedWindowIgnoresTheRegisters : Obligations.FixedWindowIgnoresTheRegisters := by
  intro s c r r' a d rest hnext hc ha
  have hread := step_readRom s c r a d rest hnext hc (by omega)
  have hread' := step_readRom (s.setCart (some (c.setRegs r'))) (c.setRegs r') r' a d rest hnext ⟨rfl, rfl⟩ (by omega)
  rw [romOff_fixed r a ha] at hread
  rw [romOff_fixed r' a ha] at hread'
  exact ⟨_, _, hread, hread', rfl, rfl⟩

/-- Settles O44: in each row of R59's table the ROM window shows the offset that the write has set. -/
theorem ramWritesShowInTheRomWindows : Obligations.RamWritesShowInTheRomWindows := by
  intro s c r a b d x rest hnext hc hwf hlo hhi hcap hopen hrow
  obtain ⟨hb, hoff⟩ : b.toNat ≤ 0x7FFF ∧ romOff r b = ramOff r a := by
    rcases hrow with ⟨hmode, hbank, hb⟩ | ⟨hmode, hbank, hromb, hb⟩ | ⟨hmode, hramb, hromb, hb⟩
    · exact romOff_eq_ramOff_fixed hlo hhi b hmode hbank hb
    · exact romOff_eq_ramOff_switchable hlo hhi b hmode hbank hromb hb
    · exact romOff_eq_ramOff_romMode hlo hhi b hmode hramb hromb hb
  have hwrite := step_writeRam hlo hhi s c d _ hnext hc hcap hopen
  have hbyte : (c.image.write (ramOff r a) d).readReply b (romOff r b) = .data d := by
    rw [hoff]
    exact c.image.readReply_write b _ d hwf (by omega) (ramOff_lt_capacity hlo hhi c.image hcap)
  have hread := run_two s _ _ hwrite
    (step_readRom _ (c.setImage (c.image.write (ramOff r a) d)) r b x rest ⟨hnext.1, rfl⟩ ⟨rfl, hc.2⟩ hb)
  exact ⟨_, hread, congrArg some hbyte, rfl⟩

end Sys2Proof.Proofs
end

section
/-! SUPPORT. The decoder by the address ranges (R84 to R86), by the window bits (R87), and by the type byte (R88). -/

namespace Sys2Proof

/-! Bit strings as numbers. -/

theorem append_toNat {m n : Nat} (x : BitVec m) (y : BitVec n) : (x ++ y).toNat = x.toNat * 2 ^ n + y.toNat := by
  rw [BitVec.toNat_append, ← Nat.shiftLeft_add_eq_or_of_lt y.isLt, Nat.shiftLeft_eq]

theorem lowBits_toNat {m : Nat} (x : BitVec m) (n : Nat) : (x.extractLsb' 0 n).toNat = x.toNat % 2 ^ n := by
  rw [BitVec.extractLsb'_toNat, Nat.shiftRight_zero]

/-! The windows are adjacent: where the tests below it have failed, a range is told by its upper end. -/

theorem ite_inRange_congr {α : Type} (a : Addr) (lo hi : BitVec 16) (x y y' : α) (hlo : lo.toNat ≤ a.toNat)
    (helse : ¬ a.toNat ≤ hi.toNat → y = y') :
    (if a.toNat ≤ hi.toNat then x else y) = if AddressValue.inRange a lo hi then x else y' :=
  have hin : a.toNat ≤ hi.toNat ↔ AddressValue.inRange a lo hi = true := by
    rw [inRange_iff, and_iff_right hlo]
  ite_congr (propext hin) (fun _ => rfl) fun hout => helse (mt hin.mp hout)

/-- The RAM window and the unmapped window below it exclude each other, so either may be tested first. -/
theorem ite_ram_unmapped_comm {α : Type} (a : Addr) (x y z : α) :
    (if AddressValue.inRange a 0xA000 0xBFFF then x else if AddressValue.inRange a 0x8000 0x9FFF then y else z) =
      if AddressValue.inRange a 0x8000 0x9FFF then y else if AddressValue.inRange a 0xA000 0xBFFF then x else z :=
  ite_ite_comm _ _ _ _ fun hram hun => by
    rw [inRange_iff] at hram hun
    exact absurd (Nat.le_trans hram.1 hun.2) (by decide)

/-- The MBC1 read decode by the source's closed ranges (R84). -/
theorem decodeMbc1Read_inRange (a : Addr) : decodeMbc1Read a =
    if AddressValue.inRange a 0x0000 0x3FFF then .rdRom0 a
    else if AddressValue.inRange a 0x4000 0x7FFF then .rdRomx a
    else if AddressValue.inRange a 0xA000 0xBFFF then .rdRam a
    else if AddressValue.inRange a 0x8000 0x9FFF then .rdUnmapped8 a else .rdUnmappedC a := by
  rw [decodeMbc1Read_eq, ite_ram_unmapped_comm]
  exact ite_inRange_congr a _ 0x3FFF _ _ _ (Nat.zero_le _) fun h3 =>
    ite_inRange_congr a _ 0x7FFF _ _ _ (Nat.lt_of_not_le h3) fun h7 =>
    ite_inRange_congr a _ 0x9FFF _ _ _ (Nat.lt_of_not_le h7) fun h9 =>
    ite_inRange_congr a _ 0xBFFF _ _ _ (Nat.lt_of_not_le h9) fun _ => rfl

/-- The MBC1 write decode by the source's closed ranges (R85). -/
theorem decodeMbc1Write_inRange (a : Addr) (d : Byte) : decodeMbc1Write a d =
    if AddressValue.inRange a 0x0000 0x1FFF then .wrRamen a d
    else if AddressValue.inRange a 0x2000 0x3FFF then .wrRomb a d
    else if AddressValue.inRange a 0x4000 0x5FFF then .wrRamb a d
    else if AddressValue.inRange a 0x6000 0x7FFF then .wrMode a d
    else if AddressValue.inRange a 0xA000 0xBFFF then .wrRam a d
    else if AddressValue.inRange a 0x8000 0x9FFF then .wrUnmapped8 a d else .wrUnmappedC a d := by
  rw [decodeMbc1Write_eq, ite_ram_unmapped_comm]
  exact ite_inRange_congr a _ 0x1FFF _ _ _ (Nat.zero_le _) fun h1 =>
    ite_inRange_congr a _ 0x3FFF _ _ _ (Nat.lt_of_not_le h1) fun h3 =>
    ite_inRange_congr a _ 0x5FFF _ _ _ (Nat.lt_of_not_le h3) fun h5 =>
    ite_inRange_congr a _ 0x7FFF _ _ _ (Nat.lt_of_not_le h5) fun h7 =>
    ite_inRange_congr a _ 0x9FFF _ _ _ (Nat.lt_of_not_le h7) fun h9 =>
    ite_inRange_congr a _ 0xBFFF _ _ _ (Nat.lt_of_not_le h9) fun _ => rfl

/-! The tables and the decoder look at four bits of a word: `W` and `A[15:13]`. -/

/-- The bits 24:21 of `T`: `W` and `A[15:13]`. -/
def BusWord.window (t : BusWord) : BitVec 4 := t.extractLsb' 21 4

/-- The word with the window bits `n` and every other bit zero. -/
def windowWord (n : BitVec 4) : BusWord := n ++ 0#21

theorem BusWord.isWrite_eq_window (t : BusWord) : BusWord.isWrite t = (BusWord.window t).getLsbD 3 := by
  simp [BusWord.isWrite, BusWord.window]

theorem BusWord.topBits_eq_window (t : BusWord) :
    (BusWord.addr t).extractLsb' 13 3 = (BusWord.window t).extractLsb' 0 3 := by
  apply BitVec.eq_of_getLsbD_eq
  intro i hi
  simp [BusWord.addr, BusWord.window, hi, show 13 + i < 16 by omega, show i < 4 by omega,
    show 8 + (13 + i) = 21 + i by omega]

theorem BusWord.addrBit15_eq_window (t : BusWord) :
    (BusWord.addr t).getLsbD 15 = (BusWord.window t).getLsbD 2 := by
  simp [BusWord.addr, BusWord.window]

@[simp] theorem window_windowWord (n : BitVec 4) : BusWord.window (windowWord n) = n :=
  BitVec.extractLsb'_append_eq_left

/-- Which row a word decodes to is decided by the window bits alone. -/
theorem mnemonic_decodeBus_of_window (v : Variant) (t u : BusWord) (h : BusWord.window t = BusWord.window u) :
    (decodeBus v t).mnemonic = (decodeBus v u).mnemonic := by
  have htop : (BusWord.addr t).extractLsb' 13 3 = (BusWord.addr u).extractLsb' 13 3 := by
    rw [BusWord.topBits_eq_window, BusWord.topBits_eq_window, h]
  unfold decodeBus
  rw [BusWord.isWrite_eq_window t, BusWord.isWrite_eq_window u, BusWord.addrBit15_eq_window t,
    BusWord.addrBit15_eq_window u, h]
  split
  · unfold decodeMbc1Read
    rw [htop]
    split <;> rfl
  · unfold decodeMbc1Write
    rw [htop]
    split <;> rfl
  · split_ifs <;> rfl
  · rfl

/-- What a mask of the four window bits keeps of a word. -/
theorem and_windowMask (t : BusWord) : t &&& 0x1E00000#25 = windowWord (BusWord.window t) := by
  have ht := t.isLt
  rw [and_highMask_iff t _ _ 21 (by decide), windowWord, BusWord.window, append_toNat, BitVec.extractLsb'_toNat,
    Nat.shiftRight_eq_div_pow, BitVec.toNat_ofNat]
  omega

/-- No row matches a bit below the window bits. -/
theorem busRows_mask_le_window (v : Variant) : ∀ row ∈ busRows v, 0x1E00000#25 &&& row.mask = row.mask := by
  cases v <;> decide

/-- Which rows a word selects is decided by the window bits alone. -/
theorem selects_of_window (v : Variant) (t : BusWord) (row : Row) (hrow : row ∈ busRows v) :
    row.selects (windowWord (BusWord.window t)) = row.selects t := by
  rw [← and_windowMask, Row.selects, Row.selects, BitVec.and_assoc, busRows_mask_le_window v row hrow]

/-- The table of `v` selects one row of the word `t`, the one the decoder gives (R87). -/
abbrev OneRow (v : Variant) (t : BusWord) : Prop :=
  (∀ row ∈ busRows v, (row.selects t = true ↔ (decodeBus v t).mnemonic = row.mnemonic)) ∧
    ∃ row ∈ busRows v, row.selects t = true ∧ ∀ row' ∈ busRows v, row'.selects t = true → row' = row

/-- The sixteen values of the window bits, by either table. -/
theorem oneRow_windowWord (v : Variant) : ∀ n : BitVec 4, OneRow v (windowWord n) := by
  cases v <;> decide

/-- A word is its window's word to the table and to the decoder. -/
theorem oneRow_of_window (v : Variant) (t : BusWord) (h : OneRow v (windowWord (BusWord.window t))) : OneRow v t := by
  have hdec := mnemonic_decodeBus_of_window v (windowWord (BusWord.window t)) t (window_windowWord _)
  have hsel := selects_of_window v t
  obtain ⟨hiff, row, hrow, hrowsel, hone⟩ := h
  refine ⟨fun row hrow => ?_, row, hrow, hsel row hrow ▸ hrowsel, fun row' hrow' hsel' => ?_⟩
  · rw [← hsel row hrow, ← hdec]
    exact hiff row hrow
  · exact hone row' hrow' (hsel row' hrow' ▸ hsel')

/-- A type byte that no row names is the default's (R88). -/
theorem decodeCt_of_not_named (t : Byte) (h : namedTypes.contains t = false) : decodeCt t = .ctUnknown t := by
  have named (n : Nat) (ht : t.toNat = n) (hn : namedTypes.contains (BitVec.ofNat 8 n) = true) : False := by
    rw [← ht, BitVec.ofNat_toNat, BitVec.setWidth_eq, h] at hn
    cases hn
  unfold decodeCt
  split
  case h_22 => rfl
  all_goals exact (named _ ‹_› (by decide)).elim

end Sys2Proof
end

section
/-! SUPPORT. The register fields that select a bank, as bit strings (R25, R26, R89). -/

namespace Sys2Proof.Machine

/-- `ROMB[4:0]` (R25). -/
theorem rombBits_eq_lowBits (r : Mbc1Regs) : rombBits r = (r.romb.extractLsb' 0 5).toNat := by
  rw [lowBits_toNat, rombBits, BitVec.toNat_and]
  exact Nat.and_two_pow_sub_one_eq_mod _ 5

/-- `RAMB[1:0]` (R26, D3). -/
theorem rambBits_eq_lowBits (r : Mbc1Regs) : rambBits r = (r.ramb.extractLsb' 0 2).toNat := by
  rw [lowBits_toNat, rambBits, BitVec.toNat_and]
  exact Nat.and_two_pow_sub_one_eq_mod _ 2

end Sys2Proof.Machine
end

section
/-! PROOFS. The encoding (spec/30_encoding.md): what a step runs, the decode tables, and the offsets as bit strings. -/

namespace Sys2Proof.Proofs

open Sys2Proof.Machine

/-- Settles O5, by the decoder's law for each table and direction. -/
theorem windowsSelectTheOperation : Obligations.WindowsSelectTheOperation := by
  refine ⟨fun a d => ?mbc1Read, fun a d => ?mbc1Write, fun a d => ?nobankRead, decodeBus_nobank_write⟩
  case mbc1Read => rw [decodeBus_mbc1_read, decodeMbc1Read_inRange]
  case mbc1Write => rw [decodeBus_mbc1_write, decodeMbc1Write_inRange]
  case nobankRead => exact decodeBus_nobank_read a d

/-- Settles O7: the four window bits decide both which rows a word selects and what it decodes to, and their sixteen
values are checked. -/
theorem everyWordSelectsOneRow : Obligations.EveryWordSelectsOneRow :=
  fun v t => oneRow_of_window v t (oneRow_windowWord v (BusWord.window t))

/-- Settles O37: a bit string is its parts' sum, and the window's base is a multiple of what the address part spans. -/
theorem offsetsAreBitStrings : Obligations.OffsetsAreBitStrings := by
  intro r a
  refine ⟨fun hlo hhi hmode => ?romxMode0, fun hlo hhi hmode => ?romxMode1, fun hlo _ hmode => ?ramMode0,
    fun hlo hhi hmode => ?ramMode1⟩
  case romxMode0 =>
    rw [romxOff_eq r a hlo, romIdx_eq, if_pos hmode, rambBits_eq_lowBits, rombBits_eq_lowBits, append_toNat,
      append_toNat, lowBits_toNat a]
    omega
  case romxMode1 =>
    rw [romxOff_eq r a hlo, romIdx_eq, if_neg hmode, rombBits_eq_lowBits, append_toNat, lowBits_toNat a]
    omega
  case ramMode0 => exact ramOff_of_mode_zero hlo hmode
  case ramMode1 =>
    rw [ramOff_eq r a hlo, if_neg hmode, rambBits_eq_lowBits, append_toNat, lowBits_toNat a]
    omega

/-- Settles O1: `step`'s laws for the selector's turn and for a transaction. -/
theorem stepRunsTheSelectedOperation : Obligations.StepRunsTheSelectedOperation :=
  ⟨step_selector, fun s c t rest hnext hc => step_bus s c t rest hnext hc⟩

/-- Settles O4, by evaluation of the decoder on the words. -/
theorem tableWordsDecode : Obligations.TableWordsDecode := by
  unfold Obligations.TableWordsDecode
  decide

/-- Settles O6: each named byte by evaluation, the rest by the decoder's default. -/
theorem typeByteTable : Obligations.TypeByteTable :=
  ⟨by decide, by decide, by decide, by decide, by decide, rfl, decodeCt_of_not_named⟩

end Sys2Proof.Proofs
end

section
/-! SUPPORT. The address value's arithmetic where the window tests do not use it (spec/40_address_value.md R112, R113). -/

namespace Sys2Proof.AddressValue

/-- An amount above the value saturates (R113). -/
theorem satSub_eq_zero (a : Addr) (k : Nat) (h : a.toNat < k) : satSub a k = ofRaw 0x0000#16 := by
  rw [satSub, Nat.sub_eq_zero_of_le h.le, ofRaw]

/-- A sum within 16 bits is given (R112). -/
theorem add?_eq_some (a : Addr) (k : Nat) (h : a.toNat + k ≤ 0xFFFF) :
    add? a k = some (BitVec.ofNat 16 (a.toNat + k)) :=
  if_pos h

/-- A sum beyond 16 bits is not given (U1, log 17). -/
theorem add?_eq_none (a : Addr) (k : Nat) (h : 0xFFFF < a.toNat + k) : add? a k = none :=
  if_neg (Nat.not_le_of_lt h)

end Sys2Proof.AddressValue
end

section
/-! PROOFS. The address value: ranges, subtraction and addition (spec/40_address_value.md R111 to R113). -/

namespace Sys2Proof.Proofs

open Sys2Proof.Machine

/-- Settles O59: `inRange`'s law, and subtraction's on either side of saturation. -/
theorem addressRangesAndSubtraction : Obligations.AddressRangesAndSubtraction :=
  ⟨inRange_iff, satSub_toNat, AddressValue.satSub_eq_zero⟩

/-- Settles O60: addition's law on either side of 0xFFFF; a sum that fits is not reduced modulo 2^16. -/
theorem addressAdditionIsExactOrNone : Obligations.AddressAdditionIsExactOrNone := by
  refine fun a k => ⟨fun hfits => ⟨_, AddressValue.add?_eq_some a k hfits, ?exact⟩, AddressValue.add?_eq_none a k⟩
  case exact => rw [BitVec.toNat_ofNat, Nat.mod_eq_of_lt (Nat.lt_succ_of_le hfits)]

end Sys2Proof.Proofs
end

section
/-! SUPPORT. The header by its bytes: a slice is a map over its offsets, the checksum a sum over its region, and how
the checksum changes with one byte (spec/41_header.md R120 to R129). -/

namespace Sys2Proof.Machine

theorem Header.slice_length (h : Header) (lo n : Nat) (hn : lo + n ≤ 80) : (h.slice lo n).length = n := by
  simp only [Header.slice, List.length_take, List.length_drop, Vector.length_toList]
  omega

theorem Header.slice_getElem (h : Header) (lo n j : Nat) (hn : lo + n ≤ 80) (hj : j < (h.slice lo n).length) :
    (h.slice lo n)[j] = h[lo + j]'(by rw [Header.slice_length h lo n hn] at hj; omega) := by simp [Header.slice]

/-- A slice holds the bytes at its offsets, in ascending order (R125). -/
theorem Header.slice_eq_map (h : Header) (lo n : Nat) (hn : lo + n ≤ 80) :
    h.slice lo n = (List.finRange n).map fun (i : Fin n) => h[lo + i.val] := by
  apply List.ext_getElem
  · rw [Header.slice_length h lo n hn, List.length_map, List.length_finRange]
  · intro j hj _
    simp [Header.slice_getElem h lo n j hn hj]

/-- The checksum region is the slice of 25 bytes at 0x34 (R120). -/
theorem Header.region_eq_map (h : Header) :
    h.region = (List.finRange 25).map fun (i : Fin 25) => h[0x34 + i.val] :=
  h.slice_eq_map 0x34 25 (by decide)

/-- The running subtraction of R122 adds `-byte - 1` for each byte. -/
theorem foldl_sub_eq_add_sum (l : List Byte) (x : Byte) :
    l.foldl (fun x b => x - b - 1#8) x = x + (l.map fun b => -b - 1#8).sum := by
  induction l generalizing x with
  | nil => simp
  | cons b l ih =>
    simp only [List.foldl_cons, ih, List.map_cons, List.sum_cons]
    abel

/-- Negating each byte and taking 1 off it negates the sum and takes the number of bytes off it. -/
theorem sum_map_neg_sub_one (l : List Byte) : (l.map fun b => -b - 1#8).sum = -l.sum - (l.length : Byte) := by
  induction l with
  | nil => simp
  | cons b l ih =>
    have hone : (1 : Byte) = 1#8 := rfl
    simp only [List.map_cons, List.sum_cons, List.length_cons, Nat.cast_succ, ih, hone]
    abel

/-- `Cks` is a sum of one term for each byte of the region (R124). -/
theorem Header.cks_eq_sum_map (h : Header) : h.cks = (h.region.map fun b => -b - 1#8).sum := by
  rw [Header.cks, foldl_sub_eq_add_sum, BitVec.zero_add]

/-- The closed form of `Cks` (R122). -/
theorem Header.cks_eq_neg_sum (h : Header) : h.cks = -h.region.sum - 25#8 := by
  rw [Header.cks_eq_sum_map, sum_map_neg_sub_one, Header.region_length]
  rfl

/-- A byte set in the region moves `Cks` by the old byte less the new one (R124). -/
theorem Header.cks_set_region (h : Header) (b : Byte) (i : Nat) (hlo : 0x34 ≤ i) (hhi : i < 0x4D) :
    Header.cks (h.set i b) = h.cks + h[i] - b := by
  have hlen : i - 0x34 < h.region.length := by rw [Header.region_length]; omega
  have hbyte : h.region[i - 0x34] = h[i] := by
    rw [Header.region_getElem]
    congr 1
    omega
  rw [Header.cks_eq_neg_sum, Header.cks_eq_neg_sum, Header.region_set h b i (by omega) hlo, List.sum_set',
    dif_pos hlen, hbyte]
  abel

/-- A byte set outside the region leaves `Cks` as it was (R123). -/
theorem Header.cks_set_outside (h : Header) (b : Byte) (i : Nat) (hi : i < 80) (hout : i < 0x34 ∨ 0x4D ≤ i) :
    Header.cks (h.set i b) = h.cks := by
  rcases hout with hlt | hge
  · rw [Header.cks, Header.region_set_below h b i hi hlt, Header.cks]
  · have hlen : h.region.length ≤ i - 0x34 := by rw [Header.region_length]; omega
    rw [Header.cks, Header.region_set h b i hi (by omega), List.set_eq_of_length_le hlen, Header.cks]

/-- Any other byte set leaves the stored checksum byte as it was. -/
theorem Header.headerChecksum_set_ne (h : Header) (b : Byte) (i : Nat) (hi : i < 80) (hne : i ≠ 0x4D) :
    Header.headerChecksum (h.set i b) = h.headerChecksum :=
  Vector.getElem_set_ne hi (by decide) hne

@[simp] theorem Header.headerChecksum_set_same (h : Header) (b : Byte) : Header.headerChecksum (h.set 0x4D b) = b :=
  Vector.getElem_set_self (by decide)

/-- `PARSE` fails on any other length than 80 (R121). -/
theorem parse_of_length_ne (bytes : List Byte) (h : bytes.length ≠ 80) : parse bytes = .error .formatError :=
  dif_neg h

/-- `PARSE` accepts 80 bytes exactly when their checksum matches (R123). -/
theorem parse_toList_ok_iff (h : Header) : parse h.toList = .ok h ↔ h.Valid := by
  rw [parse_toList]
  split
  · next hvalid => exact iff_of_true rfl hvalid
  · next hvalid => exact iff_of_false nofun hvalid

/-- `PARSE` of 80 bytes whose checksum does not match (R123). -/
theorem parse_toList_error (h : Header) (hne : ¬ h.Valid) : parse h.toList = .error .checksumError := by
  rw [parse_toList, if_neg hne]

/-- `ALNUM` as ranges of bytes (R11). -/
theorem alnum_iff (b : Byte) : alnum b = true ↔
    (0x30#8 ≤ b ∧ b ≤ 0x39#8) ∨ (0x41#8 ≤ b ∧ b ≤ 0x5A#8) ∨ (0x61#8 ≤ b ∧ b ≤ 0x7A#8) := by
  simp [alnum, BitVec.le_def, or_assoc]

/-- The number of bytes of the title field before its first byte outside `ALNUM`; 16 if there is none. -/
def Header.titleLength (h : Header) : Nat := (h.slice 0x34 16).findIdx fun b => !alnum b

theorem Header.titleField_length (h : Header) : (h.slice 0x34 16).length = 16 := h.slice_length 0x34 16 (by decide)

theorem Header.titleLength_le (h : Header) : h.titleLength ≤ 16 :=
  h.titleField_length ▸ List.findIdx_le_length

/-- The title is that many bytes from 0x34 (R126). -/
theorem Header.title_eq_take (h : Header) : h.title = (h.toList.drop 0x34).take h.titleLength := by
  rw [Header.title, List.takeWhile_eq_take_findIdx_not]
  exact List.take_take.trans (congrArg (List.take · _) (Nat.min_eq_left h.titleLength_le))

theorem Header.alnum_of_lt_titleLength (h : Header) (i : Fin 16) (hi : i.val < h.titleLength) :
    alnum h[0x34 + i.val] = true := by
  simpa [Header.slice_getElem] using List.not_of_lt_findIdx hi

theorem Header.not_alnum_of_eq_titleLength (h : Header) (i : Fin 16) (hi : i.val = h.titleLength) :
    ¬ alnum h[0x34 + i.val] = true := by
  have hlt : h.titleLength < (h.slice 0x34 16).length := by rw [Header.titleField_length]; omega
  have hstop : (!alnum (h.slice 0x34 16)[h.titleLength]) = true := List.findIdx_getElem (w := hlt)
  simpa [Header.slice_getElem, hi] using hstop

/-- A stream that is not readable or whose seek fails delivers nothing (R131). -/
theorem Source.deliver_stream_failed (readable seekable : Bool) (bytes : List Byte)
    (h : readable = false ∨ seekable = false) : (Source.stream readable seekable bytes).deliver = none := by
  rcases h with rfl | rfl <;> simp [Source.deliver]

/-- LOAD of what cannot be delivered replies `IOError`, and the slot is empty (R131, R211). -/
theorem beginLoad_of_undelivered (src : Source) (s : State) (h : src.deliver = none) :
    beginLoad src s = .next { cart := none, loading := none, queue := s.queue, reply := some (.err .ioError) } := by
  rw [beginLoad, h]
  rfl

/-- LOAD reads its source only by the bytes it delivers (R130). -/
theorem beginLoad_congr (src src' : Source) (s : State) (h : src.deliver = src'.deliver) :
    beginLoad src s = beginLoad src' s := by
  rw [beginLoad, beginLoad, h]

/-- Under the invariant an exposed header is an accepted one (R123). -/
theorem State.Inv.exposedHeader_valid (s : State) (h : Header) (hinv : s.Inv) (hh : s.exposedHeader = some h) :
    h.Valid := by
  unfold State.exposedHeader at hh
  split at hh
  · next l hl => exact Option.some.inj hh ▸ (hinv.loading l hl).header
  · obtain ⟨c, hc, rfl⟩ := Option.map_eq_some_iff.mp hh
    exact (hinv.cart c hc).header

end Sys2Proof.Machine
end

section
/-! PROOFS. The header: the checksum, `PARSE`, the fields and their exposure, and LOAD's two entry points
(spec/41_header.md). -/

namespace Sys2Proof.Proofs

open Sys2Proof.Machine

/-- Settles O51: the region is the map over its offsets, and the loop over a map is the loop over the offsets. -/
theorem checksumIsTheRunningSubtraction : Obligations.ChecksumIsTheRunningSubtraction := by
  intro h
  rw [Header.cks, Header.region_eq_map, List.foldl_map]

/-- Settles O52: the closed form sees the region only through its sum, which a permutation keeps. -/
theorem checksumIgnoresTheOrder : Obligations.ChecksumIgnoresTheOrder := by
  refine ⟨fun h => ?closed, fun h h' hperm => ?order⟩
  case closed => rw [← Header.region_eq_map, Header.cks_eq_neg_sum]
  case order =>
    rw [← Header.region_eq_map, ← Header.region_eq_map] at hperm
    rw [Header.cks_eq_neg_sum, Header.cks_eq_neg_sum, hperm.sum_eq]

/-- Settles O53, by `PARSE`'s law for each of its three ends. -/
theorem parseVerdict : Obligations.ParseVerdict :=
  ⟨parse_of_length_ne, parse_toList_error, fun h hvalid => (parse_toList_ok_iff h).mpr hvalid⟩

/-- Settles O54: one byte set in the region moves `Cks` by the difference of the bytes and keeps the stored byte; a set
of the stored byte keeps `Cks`. -/
theorem oneChangedByteIsRejected : Obligations.OneChangedByteIsRejected := by
  refine ⟨fun h => ?accepted, fun h b i hok hlo hhi hne => ?changed, fun h hok => ?cancelling⟩
  case accepted =>
    rw [parse_toList_ok_iff, Header.Valid, Header.cks_eq_sum_map, Header.region_eq_map, List.map_map]
    rfl
  case changed =>
    have hvalid : h.cks = h.headerChecksum := (parse_toList_ok_iff h).mp hok
    refine parse_toList_error _ fun hvalid' : Header.cks (h.set i b) = Header.headerChecksum (h.set i b) => hne ?_
    rcases Nat.lt_or_eq_of_le hhi with hlt | heq
    · rw [Header.cks_set_region h b i hlo hlt, Header.headerChecksum_set_ne h b i i.isLt hlt.ne, ← hvalid,
        add_sub_assoc, add_eq_left, sub_eq_zero] at hvalid'
      exact hvalid'.symm
    · obtain rfl : i = 0x4D := Fin.ext heq
      rw [Header.cks_set_outside h b _ (by decide) (by decide), hvalid] at hvalid'
      exact (hvalid'.trans (h.headerChecksum_set_same b)).symm
  case cancelling =>
    rw [parse_toList_ok_iff, Header.Valid] at hok ⊢
    rw [Header.cks_set_region _ _ 0x35 (by decide) (by decide), Header.cks_set_region h _ 0x34 (by decide) (by decide),
      Header.headerChecksum_set_ne _ _ 0x35 (by decide) (by decide),
      Header.headerChecksum_set_ne h _ 0x34 (by decide) (by decide), Vector.getElem_set_ne _ _ (by decide), hok]
    abel

/-- Settles O55: neither `Cks` nor the stored byte changes. -/
theorem uncheckedBytesDoNotMatter : Obligations.UncheckedBytesDoNotMatter := by
  intro h b i hout
  rw [parse_toList_ok_iff, parse_toList_ok_iff, Header.Valid, Header.Valid,
    Header.cks_set_outside h b i i.isLt (by omega), Header.headerChecksum_set_ne h b i i.isLt (by omega)]

/-- Settles O56: the title ends before the field's first byte outside `ALNUM`. -/
theorem titleIsTheLongestAlphanumericPrefix : Obligations.TitleIsTheLongestAlphanumericPrefix := fun h =>
  ⟨h.titleLength, h.titleLength_le, h.title_eq_take,
    fun i hi => (alnum_iff _).mp (h.alnum_of_lt_titleLength i hi),
    fun i hi => (alnum_iff _).not.mp (h.not_alnum_of_eq_titleLength i hi)⟩

/-- Settles O58: the invariant holds of accepted headers only, and a LOAD's first step that replies an error leaves the
slot empty. -/
theorem metadataIsExposedOnlyAfterParse : Obligations.MetadataIsExposedOnlyAfterParse := by
  refine ⟨fun s h hinv hh => ?accepted, fun s t src rest e hl hq hstep herr => ?failed⟩
  case accepted => exact (parse_toList_ok_iff h).mpr (hinv.exposedHeader_valid s h hh)
  case failed =>
    rw [step_load s src rest hl hq] at hstep
    rcases beginLoad_next src _ t hstep with ⟨k, rfl⟩ | ⟨bytes, hdr, -, -, -, -, rfl⟩
    · rfl
    · cases herr

/-- Settles O50: LOAD reads its source only by what it delivers. -/
theorem streamAndMemorySourcesAgree : Obligations.StreamAndMemorySourcesAgree := fun s bytes =>
  ⟨beginLoad_congr _ _ s rfl, fun readable seekable hfail =>
    beginLoad_of_undelivered _ s (Source.deliver_stream_failed readable seekable bytes hfail)⟩

/-- Settles O57: entry point and logo are slices, the global checksum a concatenation, and the other fields single bytes
by definition. -/
theorem headerFieldsDecode : Obligations.HeaderFieldsDecode := by
  intro h
  refine ⟨fun hold => if_pos hold, fun hold => if_neg hold, ?entry, ⟨?logoLength, fun i => ?logoByte⟩, ?global, rfl, rfl,
    rfl, rfl, rfl, rfl, rfl, rfl⟩
  case entry => exact h.slice_eq_map 0x00 4 (by decide)
  case logoLength => exact h.slice_length 0x04 48 (by decide)
  case logoByte =>
    rw [Header.logo, h.slice_eq_map 0x04 48 (by decide)]
    simp
  case global => exact append_toNat h[0x4E] h[0x4F]

end Sys2Proof.Proofs
end

section
/-! SUPPORT. What a read leaves of the state (R63, R140), and what the NOBANK operations answer (R142 to R145). -/

namespace Sys2Proof.Machine

/-- `t` is `s` with the result of a read as its reply: a byte or an error kind (R15). -/
def ReadResult (s t : State) : Prop :=
  ∃ k, t = s.setReply (some k) ∧ ((∃ b, k = .data b) ∨ ∃ e, k = .err e)

theorem ReadResult.of_data (s : State) (b : Byte) : ReadResult s (s.setReply (some (.data b))) :=
  ⟨_, rfl, .inl ⟨b, rfl⟩⟩

theorem ReadResult.of_err (s : State) (e : ErrorKind) : ReadResult s (s.setReply (some (.err e))) :=
  ⟨_, rfl, .inr ⟨e, rfl⟩⟩

theorem ReadResult.of_raise (k : ErrorKind) (s t : State) (h : raise k s = .next t) : ReadResult s t :=
  raise_next k s t h ▸ .of_err s k

theorem ReadResult.of_readImage (c : Cartridge) (off : Nat) (s t : State) (h : readImage c off s = .next t) :
    ReadResult s t := by
  rcases readImage_next c off s t h with ⟨-, rfl⟩ | ⟨-, rfl⟩
  · exact .of_data s _
  · exact .of_err s _

theorem ReadResult.of_guarded (c : Cartridge) (a : Addr) (s t : State) (body : Host.Outcome State Fault Refusal)
    (h : guarded c a s body = .next t) (hbody : body = .next t → ReadResult s t) : ReadResult s t := by
  rcases guarded_next c a s t body h with ⟨-, hn⟩ | ⟨-, rfl⟩
  · exact hbody hn
  · exact .of_err s _

theorem ReadResult.of_gated (r : Mbc1Regs) (s t : State) (body : Host.Outcome State Fault Refusal)
    (h : gated r s body = .next t) (hbody : body = .next t → ReadResult s t) : ReadResult s t := by
  rcases gated_next r s t body h with ⟨-, hn⟩ | ⟨-, rfl⟩
  · exact hbody hn
  · exact .of_err s _

/-- Every read of either variant ends in a read of the image or in an error, behind the guard and the gate that its row
has (R142, R143, R150 to R154). -/
theorem exec_readResult (i : Instr) (s t : State) (hi : i.direction? = some .read) (h : exec i s = .next t) :
    ReadResult s t := by
  cases i
  case rdRom0 a | rdRomx a =>
    obtain ⟨c, r, -, hn⟩ := onMbc1_next s t _ h
    exact .of_guarded c a s t _ hn (.of_readImage c _ s t)
  case rdRam a =>
    obtain ⟨c, r, -, hn⟩ := onMbc1_next s t _ h
    exact .of_guarded c a s t _ hn fun hn => .of_gated r s t _ hn (.of_readImage c _ s t)
  case rdUnmapped8 a | rdUnmappedC a =>
    obtain ⟨c, r, -, hn⟩ := onMbc1_next s t _ h
    exact .of_raise _ s t hn
  case nbRdRom a =>
    obtain ⟨c, -, hn⟩ := onNobank_next s t _ h
    exact .of_readImage c _ s t hn
  case nbRdUnmapped a =>
    obtain ⟨c, -, hn⟩ := onNobank_next s t _ h
    exact .of_raise _ s t hn
  all_goals cases hi

theorem readImage_of_lt (c : Cartridge) (off : Nat) (s : State) (h : off < c.image.capacity) :
    readImage c off s = .next (s.setReply (some (.data (c.image.read off)))) :=
  if_pos h

theorem readImage_of_le (c : Cartridge) (off : Nat) (s : State) (h : c.image.capacity ≤ off) :
    readImage c off s = .next (s.setReply (some (.err .addressError))) :=
  if_neg (Nat.not_lt.mpr h)

section
variable {s : State} {c : Cartridge} (hc : s.HasNobank c)
include hc

theorem exec_nbRdRom (a : Addr) : exec (.nbRdRom a) s = readImage c a.toNat s := onNobank_eq s c hc _

theorem exec_nbRdUnmapped (a : Addr) : exec (.nbRdUnmapped a) s = raise .addressError s := onNobank_eq s c hc _

theorem exec_nbWr (a : Addr) (d : Byte) : exec (.nbWr a d) s = raise .writeError s := onNobank_eq s c hc _

end

end Sys2Proof.Machine
end

section
/-! PROOFS. The cartridge as a memory device, and the NOBANK variant (spec/42_memory_device_nobank.md). -/

namespace Sys2Proof.Proofs

open Sys2Proof.Machine

/-- Settles O25: each read form ends in a byte of the image or in an error, over the state it was given. -/
theorem readsChangeNothing : Obligations.ReadsChangeNothing :=
  exec_readResult

/-- Settles O20: an address with `A[15]` clear reads the image, whose own validation is the test against `CAPACITY`. -/
theorem nobankReadOfTheRom : Obligations.NobankReadOfTheRom := by
  refine fun s c a hc ha => ⟨fun d => ?decode, fun hcap => ?inside, fun hcap => ?beyond⟩
  case decode => rw [decodeBus_nobank_read, if_neg (by omega)]
  case inside => rw [exec_nbRdRom hc, readImage_of_lt c _ s hcap]
  case beyond => rw [exec_nbRdRom hc, readImage_of_le c _ s hcap]

/-- Settles O21: both operations raise their error on any NOBANK cartridge, without a look at its image. -/
theorem nobankRefusesTheRest : Obligations.NobankRefusesTheRest := by
  refine fun s c a hc => ⟨fun ha => ⟨fun d => ?decodeRead, ?read⟩, fun d => ⟨?decodeWrite, ?write⟩⟩
  case decodeRead => rw [decodeBus_nobank_read, if_pos ha]
  case read => exact exec_nbRdUnmapped hc a
  case decodeWrite => exact decodeBus_nobank_write a d
  case write => exact exec_nbWr hc a d

end Sys2Proof.Proofs
end

section
/-! SUPPORT. The windows that the MBC1 reads and the unmapped operations decode from (R84, R85), and what these
operations answer on an MBC1 cartridge (R150 to R154, R165, R166). -/

namespace Sys2Proof.Machine

section
variable {a : Addr}

theorem decodeMbc1Read_fixed (hhi : a.toNat ≤ 0x3FFF) : decodeMbc1Read a = .rdRom0 a := by
  rw [decodeMbc1Read_eq, if_pos hhi]

theorem decodeMbc1Read_switchable (hlo : 0x4000 ≤ a.toNat) (hhi : a.toNat ≤ 0x7FFF) :
    decodeMbc1Read a = .rdRomx a := by
  rw [decodeMbc1Read_eq, if_neg (by omega), if_pos hhi]

theorem decodeMbc1Read_unmapped8 (hlo : 0x8000 ≤ a.toNat) (hhi : a.toNat ≤ 0x9FFF) :
    decodeMbc1Read a = .rdUnmapped8 a := by
  rw [decodeMbc1Read_eq, if_neg (by omega), if_neg (by omega), if_pos hhi]

theorem decodeMbc1Read_ram (hlo : 0xA000 ≤ a.toNat) (hhi : a.toNat ≤ 0xBFFF) : decodeMbc1Read a = .rdRam a := by
  rw [decodeMbc1Read_eq, if_neg (by omega), if_neg (by omega), if_neg (by omega), if_pos hhi]

theorem decodeMbc1Read_unmappedC (hlo : 0xC000 ≤ a.toNat) : decodeMbc1Read a = .rdUnmappedC a := by
  rw [decodeMbc1Read_eq, if_neg (by omega), if_neg (by omega), if_neg (by omega), if_neg (by omega)]

theorem decodeMbc1Write_unmapped8 (hlo : 0x8000 ≤ a.toNat) (hhi : a.toNat ≤ 0x9FFF) (d : Byte) :
    decodeMbc1Write a d = .wrUnmapped8 a d := by
  rw [decodeMbc1Write_eq, if_neg (by omega), if_neg (by omega), if_neg (by omega), if_neg (by omega), if_pos hhi]

theorem decodeMbc1Write_unmappedC (hlo : 0xC000 ≤ a.toNat) (d : Byte) : decodeMbc1Write a d = .wrUnmappedC a d := by
  rw [decodeMbc1Write_eq, if_neg (by omega), if_neg (by omega), if_neg (by omega), if_neg (by omega), if_neg (by omega),
    if_neg (by omega)]

end

theorem gated_of_closed (r : Mbc1Regs) (s : State) (body : Host.Outcome State Fault Refusal)
    (h : r.ramen &&& 0x0F#8 ≠ 0x0A#8) : gated r s body = raise .ramDisabledError s :=
  if_neg (mt (ramOn_iff r).mp h)

/-- `RomIdx` (R55), by the registers themselves. -/
theorem romIdx_eq_ite (r : Mbc1Regs) :
    romIdx r = if r.mode = 0x00#8 then ((r.ramb &&& 0x03#8).toNat <<< 5) ||| (r.romb &&& 0x1F#8).toNat
      else (r.romb &&& 0x1F#8).toNat :=
  ite_congr (propext decide_eq_true_iff) (fun _ => rfl) fun _ => rfl

section
variable {s : State} {c : Cartridge} {r : Mbc1Regs} (hc : s.HasMbc1 c r)
include hc

theorem exec_rdRom0 (a : Addr) : exec (.rdRom0 a) s = guarded c a s (readImage c a.toNat s) := onMbc1_eq s c r hc _

theorem exec_rdRomx (a : Addr) : exec (.rdRomx a) s = guarded c a s (readImage c (romxOff r a) s) :=
  onMbc1_eq s c r hc _

theorem exec_rdRam (a : Addr) : exec (.rdRam a) s = guarded c a s (gated r s (readImage c (ramOff r a) s)) :=
  onMbc1_eq s c r hc _

theorem exec_rdUnmapped8 (a : Addr) : exec (.rdUnmapped8 a) s = raise .addressError s := onMbc1_raise hc _

theorem exec_rdUnmappedC (a : Addr) : exec (.rdUnmappedC a) s = raise .addressError s := onMbc1_raise hc _

theorem exec_wrUnmapped8 (a : Addr) (d : Byte) : exec (.wrUnmapped8 a d) s = raise .addressError s := onMbc1_raise hc _

theorem exec_wrUnmappedC (a : Addr) (d : Byte) : exec (.wrUnmappedC a d) s = raise .addressError s := onMbc1_raise hc _

end

end Sys2Proof.Machine
end

section
/-! PROOFS. The MBC1 reads, and the writes of the unmapped windows (spec/43_mbc1_read.md; spec/44_mbc1_write.md R165,
R166). -/

namespace Sys2Proof.Proofs

open Sys2Proof.Machine

/-- Settles O12: behind the guard the image validates the offset, whose index is `RomIdx` of the registers. -/
theorem readOfTheSwitchableWindow : Obligations.ReadOfTheSwitchableWindow := by
  intro s c r a idx hc hlo hhi hidx
  have hoff : romxOff r a = idx * 0x4000 + (a.toNat - 0x4000) := by rw [romxOff_eq r a hlo, romIdx_eq_ite, hidx]
  rw [exec_rdRomx hc, hoff]
  refine ⟨fun d => ?decode, fun hcap => ?atOrAbove, fun hcap hbeyond => ?beyond, fun hcap hin => ?inside⟩
  case decode => rw [decodeBus_mbc1_read, decodeMbc1Read_switchable hlo hhi]
  case atOrAbove => exact guarded_of_le c a s _ hcap
  case beyond => rw [guarded_of_lt c a s _ hcap, readImage_of_le c _ s hbeyond]
  case inside => rw [guarded_of_lt c a s _ hcap, readImage_of_lt c _ s hin]

/-- Settles O13: the guard, then the gate; an address that passes the guard has its offset in the image (R58), so that a
read through the open gate never fails. -/
theorem readOfTheRamWindow : Obligations.ReadOfTheRamWindow := by
  intro s c r a off hc hlo hhi hoff
  have hram : ramOff r a = off := (ramOff_eq r a hlo).trans hoff.symm
  rw [exec_rdRam hc, hram]
  refine ⟨fun d => ?decode, fun hcap => ?atOrAbove, fun hcap hclosed => ?gateClosed, fun hcap hopen => ?gateOpen⟩
  case decode => rw [decodeBus_mbc1_read, decodeMbc1Read_ram hlo hhi]
  case atOrAbove => exact guarded_of_le c a s _ hcap
  case gateClosed => exact (guarded_of_lt c a s _ hcap).trans (gated_of_closed r s _ hclosed)
  case gateOpen =>
    have hin : off < c.image.capacity := hram ▸ ramOff_lt_capacity hlo hhi c.image hcap
    rw [guarded_of_lt c a s _ hcap, gated_of_open r s _ hopen, readImage_of_lt c off s hin]

/-- Settles O11: the offset is the address, so that the guard is all that can fail. -/
theorem readOfTheFixedWindow : Obligations.ReadOfTheFixedWindow := by
  intro s c r a hc ha
  rw [exec_rdRom0 hc]
  refine ⟨fun d => ?decode, fun hcap => ?atOrAbove, fun hcap => ?below⟩
  case decode => rw [decodeBus_mbc1_read, decodeMbc1Read_fixed ha]
  case atOrAbove => exact guarded_of_le c a s _ hcap
  case below => rw [guarded_of_lt c a s _ hcap, readImage_of_lt c _ s hcap]

/-- Settles O19: in both windows a read and a write decode to operations that only raise. -/
theorem unmappedWindowsAnswerAddressError : Obligations.UnmappedWindowsAnswerAddressError := by
  intro s c r a hc
  refine ⟨fun hlo hhi d => ?window8, fun hlo d => ?windowC⟩
  case window8 =>
    rw [decodeBus_mbc1_read, decodeBus_mbc1_write]
    exact ⟨decodeMbc1Read_unmapped8 hlo hhi, decodeMbc1Write_unmapped8 hlo hhi d, exec_rdUnmapped8 hc a,
      exec_wrUnmapped8 hc a d⟩
  case windowC =>
    rw [decodeBus_mbc1_read, decodeBus_mbc1_write]
    exact ⟨decodeMbc1Read_unmappedC hlo, decodeMbc1Write_unmappedC hlo d, exec_rdUnmappedC hc a,
      exec_wrUnmappedC hc a d⟩

end Sys2Proof.Proofs
end

section
/-! SUPPORT. The MBC1 writes: the windows they decode from (R85), the register writes as one (R160 to R163), and a
transaction of the RAM window behind the guard and through the open gate (R152, R164). -/

namespace Sys2Proof.Machine

section
variable {a : Addr}

theorem decodeMbc1Write_ramen (hhi : a.toNat ≤ 0x1FFF) (d : Byte) : decodeMbc1Write a d = .wrRamen a d := by
  rw [decodeMbc1Write_eq, if_pos hhi]

theorem decodeMbc1Write_romb (hlo : 0x2000 ≤ a.toNat) (hhi : a.toNat ≤ 0x3FFF) (d : Byte) :
    decodeMbc1Write a d = .wrRomb a d := by
  rw [decodeMbc1Write_eq, if_neg (by omega), if_pos hhi]

theorem decodeMbc1Write_ramb (hlo : 0x4000 ≤ a.toNat) (hhi : a.toNat ≤ 0x5FFF) (d : Byte) :
    decodeMbc1Write a d = .wrRamb a d := by
  rw [decodeMbc1Write_eq, if_neg (by omega), if_neg (by omega), if_pos hhi]

theorem decodeMbc1Write_mode (hlo : 0x6000 ≤ a.toNat) (hhi : a.toNat ≤ 0x7FFF) (d : Byte) :
    decodeMbc1Write a d = .wrMode a d := by
  rw [decodeMbc1Write_eq, if_neg (by omega), if_neg (by omega), if_neg (by omega), if_pos hhi]

end

/-- `RegWrite r a i r'`: the operation `i` is a register write at the address `a`, and it makes `r'` of the registers
`r`. -/
inductive RegWrite (r : Mbc1Regs) (a : Addr) : Instr → Mbc1Regs → Prop where
  | ramen (d : Byte) : RegWrite r a (.wrRamen a d) (r.setRamen d)
  | romb (d : Byte) : RegWrite r a (.wrRomb a d) (r.setRomb (coerceRomb d))
  | ramb (d : Byte) : RegWrite r a (.wrRamb a d) (r.setRamb d)
  | mode (d : Byte) : RegWrite r a (.wrMode a d) (r.setMode d)

section
variable {s : State} {c : Cartridge} {r r' : Mbc1Regs} {a : Addr} {i : Instr} (hc : s.HasMbc1 c r)
  (hw : RegWrite r a i r')
include hc hw

/-- The four register writes differ in what they make of the registers only: the guard is the same (R160 to R163). -/
theorem exec_regWrite : exec i s = guarded c a s (writeRegs c r' s) := by
  cases hw with
  | ramen d => exact onMbc1_eq s c r hc _
  | romb d => exact onMbc1_eq s c r hc _
  | ramb d => exact onMbc1_eq s c r hc _
  | mode d => exact onMbc1_eq s c r hc _

theorem exec_regWrite_of_le (hcap : c.image.capacity ≤ a.toNat) :
    exec i s = .next (s.setReply (some (.err .addressError))) := by
  rw [exec_regWrite hc hw, guarded_of_le c a s _ hcap, raise, answer]

theorem exec_regWrite_of_lt (hcap : a.toNat < c.image.capacity) :
    exec i s = .next ((s.setCart (some (c.setRegs r'))).setReply (some .ok)) := by
  rw [exec_regWrite hc hw, guarded_of_lt c a s _ hcap, writeRegs, answer]

end

/-- A register write below `CAPACITY` sets the registers and replies `Ok` (R160 to R163). -/
theorem step_regWrite {s : State} {c : Cartridge} {r r' : Mbc1Regs} {a : Addr} {i : Instr} {d : Byte}
    {rest : List Request} (hnext : s.NextIs (busWord true a d) rest) (hc : s.HasMbc1 c r)
    (hcap : a.toNat < c.image.capacity) (hdecode : decodeMbc1Write a d = i) (hw : RegWrite r a i r') :
    step s = .next (((s.setQueue rest).setCart (some (c.setRegs r'))).setReply (some .ok)) := by
  rw [step_mbc1 s c r _ rest hnext hc, decodeBus_mbc1_write, hdecode]
  exact exec_regWrite_of_lt (s := s.setQueue rest) hc hw hcap

/-- The controller of the slot's cartridge, registers and all, is the same in both states. -/
def SameCtrl (s t : State) : Prop := t.cart.map (·.ctrl) = s.cart.map (·.ctrl)

theorem SameCtrl.of_reply (s : State) (k : Reply) : SameCtrl s (s.setReply (some k)) := rfl

theorem SameCtrl.of_setImage (s : State) (c : Cartridge) (m : Image) (k : Reply) (hc : s.cart = some c) :
    SameCtrl s ((s.setCart (some (c.setImage m))).setReply (some k)) := by
  simp [SameCtrl, hc]

/-- The same controller has the same registers. -/
theorem SameCtrl.regs_eq {s t : State} {c c' : Cartridge} {r r' : Mbc1Regs} (h : SameCtrl s t) (hc : s.HasMbc1 c r)
    (hc' : t.HasMbc1 c' r') : r' = r := by
  obtain ⟨hcart, hctrl⟩ := hc
  obtain ⟨hcart', hctrl'⟩ := hc'
  simpa [SameCtrl, hcart, hcart', hctrl, hctrl'] using h

/-- What an operation leaves: the same controller, or the registers that a write of one of them gives and the reply
`Ok`. -/
def SameCtrlOrRegWrite (i : Instr) (c : Cartridge) (r : Mbc1Regs) (s t : State) : Prop :=
  SameCtrl s t ∨ ∃ a r', RegWrite r a i r' ∧ t = (s.setCart (some (c.setRegs r'))).setReply (some .ok)

theorem RegWrite.next {r r' : Mbc1Regs} {a : Addr} {i : Instr} (hw : RegWrite r a i r') (s t : State) (c : Cartridge)
    (hc : s.HasMbc1 c r) (h : exec i s = .next t) : SameCtrlOrRegWrite i c r s t := by
  rw [exec_regWrite hc hw] at h
  rcases guarded_next c a s t _ h with ⟨-, hn⟩ | ⟨-, rfl⟩
  · exact .inr ⟨a, r', hw, writeRegs_next c r' s t hn⟩
  · exact .inl (.of_reply s _)

/-- An MBC1 operation that answers keeps the registers, or it is a register write that has passed the guard (R167). -/
theorem exec_sameCtrl_or_regWrite (i : Instr) (s t : State) (c : Cartridge) (r : Mbc1Regs)
    (hv : i.variant? = some .mbc1) (hc : s.HasMbc1 c r) (h : exec i s = .next t) : SameCtrlOrRegWrite i c r s t := by
  cases i
  case wrRamen a d => exact (RegWrite.ramen d).next s t c hc h
  case wrRomb a d => exact (RegWrite.romb d).next s t c hc h
  case wrRamb a d => exact (RegWrite.ramb d).next s t c hc h
  case wrMode a d => exact (RegWrite.mode d).next s t c hc h
  case rdRom0 a | rdRomx a | rdRam a | rdUnmapped8 a | rdUnmappedC a =>
    obtain ⟨k, rfl, -⟩ := exec_readResult _ s t rfl h
    exact .inl (.of_reply s k)
  case wrRam a d =>
    rcases execWrRam_next a d s t h with ⟨c₀, r₀, ⟨hcart, -⟩, -, rfl⟩ | ⟨k, rfl⟩
    · exact .inl (.of_setImage s c₀ _ _ hcart)
    · exact .inl (.of_reply s _)
  case wrUnmapped8 a d | wrUnmappedC a d =>
    obtain ⟨-, -, -, hn⟩ := onMbc1_next s t _ h
    exact .inl (raise_keeps (SameCtrl.of_reply s) _ hn)
  all_goals cases hv

theorem exec_wrRam {s : State} {c : Cartridge} {r : Mbc1Regs} (hc : s.HasMbc1 c r) (a : Addr) (d : Byte) :
    exec (.wrRam a d) s = guarded c a s (gated r s (writeImage c (ramOff r a) d s)) :=
  onMbc1_eq s c r hc _

theorem writeImage_of_lt (c : Cartridge) (off : Nat) (d : Byte) (s : State) (h : off < c.image.capacity) :
    writeImage c off d s =
      .next ((s.setCart (some (c.setImage (c.image.write off d)))).setReply (some .ok)) :=
  if_pos h

section
variable {a : Addr} (hlo : 0xA000 ≤ a.toNat) (hhi : a.toNat ≤ 0xBFFF)
include hlo hhi

/-- A read of the RAM window behind the guard and through the open gate replies the byte at its offset (R152). -/
theorem step_readRam {r : Mbc1Regs} (s : State) (c : Cartridge) (x : Byte) (rest : List Request)
    (hnext : s.NextIs (busWord false a x) rest) (hc : s.HasMbc1 c r) (hcap : a.toNat < c.image.capacity)
    (hopen : r.ramen &&& 0x0F#8 = 0x0A#8) :
    step s = .next ((s.setQueue rest).setReply (some (.data (c.image.read (ramOff r a))))) := by
  rw [step_mbc1 s c r _ rest hnext hc, decodeBus_mbc1_read, decodeMbc1Read_ram hlo hhi,
    exec_rdRam (s := s.setQueue rest) hc, guarded_of_lt c a _ _ hcap, gated_of_open r _ _ hopen,
    readImage_of_lt c _ _ (ramOff_lt_capacity hlo hhi c.image hcap)]

/-- In RAM banking mode an image byte is reached from one bank and at one address only (R57, D3). -/
theorem ramOff_inj {b : Addr} {r r' : Mbc1Regs} (hlo' : 0xA000 ≤ b.toNat) (hhi' : b.toNat ≤ 0xBFFF)
    (hmode : r.mode ≠ 0x00#8) (hmode' : r'.mode ≠ 0x00#8) (hoff : ramOff r a = ramOff r' b) :
    r.ramb &&& 0x03#8 = r'.ramb &&& 0x03#8 ∧ a = b := by
  rw [ramOff_of_mode_ne hlo hmode, ramOff_of_mode_ne hlo' hmode'] at hoff
  exact ⟨BitVec.eq_of_toNat_eq (by omega), BitVec.eq_of_toNat_eq (by omega)⟩

end

/-! Transactions served one after the other (R64), with what each leaves for the next. -/

/-- A run goes on by one step. -/
theorem run_snoc (n : Nat) (s t u : State) (h : run n s = .next t) (h' : step t = .next u) :
    run (n + 1) s = .next u := by
  induction n generalizing s with
  | zero =>
    obtain rfl : s = t := Host.Outcome.next.inj h
    rw [run_one, h']
  | succ n ih =>
    cases hs : step s with
    | next s₁ =>
      rw [run_succ n s s₁ hs] at h
      rw [run_succ (n + 1) s s₁ hs, ih s₁ h]
    | fault e => simp [run, hs] at h
    | refused e => simp [run, hs] at h

/-- `n` steps from `s` lead to a state with the MBC1 cartridge `c` and its registers `r`, where the requests `q` wait. -/
def RunsTo (n : Nat) (s : State) (c : Cartridge) (r : Mbc1Regs) (q : List Request) : Prop :=
  ∃ t, run n s = .next t ∧ t.HasMbc1 c r ∧ t.loading = none ∧ t.queue = q

theorem RunsTo.zero {s : State} {c : Cartridge} {r : Mbc1Regs} {q : List Request} (hc : s.HasMbc1 c r)
    (hl : s.loading = none) (hq : s.queue = q) : RunsTo 0 s c r q :=
  ⟨s, rfl, hc, hl, hq⟩

section
variable {n : Nat} {s : State} {c : Cartridge} {r : Mbc1Regs} {rest : List Request} {a : Addr} {d : Byte}

theorem RunsTo.writeReg {r' : Mbc1Regs} {i : Instr} (h : RunsTo n s c r (.bus (busWord true a d) :: rest))
    (hcap : a.toNat < c.image.capacity) (hdecode : decodeMbc1Write a d = i) (hw : RegWrite r a i r') :
    RunsTo (n + 1) s (c.setRegs r') r' rest := by
  obtain ⟨t, hrun, hc, hl, hq⟩ := h
  exact ⟨_, run_snoc n s t _ hrun (step_regWrite ⟨hl, hq⟩ hc hcap hdecode hw), ⟨rfl, rfl⟩, hl, rfl⟩

theorem RunsTo.writeRam (h : RunsTo n s c r (.bus (busWord true a d) :: rest)) (hlo : 0xA000 ≤ a.toNat)
    (hhi : a.toNat ≤ 0xBFFF) (hcap : a.toNat < c.image.capacity) (hopen : r.ramen &&& 0x0F#8 = 0x0A#8) :
    RunsTo (n + 1) s (c.setImage (c.image.write (ramOff r a) d)) r rest := by
  obtain ⟨t, hrun, hc, hl, hq⟩ := h
  exact ⟨_, run_snoc n s t _ hrun (step_writeRam hlo hhi t c d rest ⟨hl, hq⟩ hc hcap hopen), ⟨rfl, hc.2⟩, hl, rfl⟩

theorem RunsTo.readRam (h : RunsTo n s c r (.bus (busWord false a d) :: rest)) (hlo : 0xA000 ≤ a.toNat)
    (hhi : a.toNat ≤ 0xBFFF) (hcap : a.toNat < c.image.capacity) (hopen : r.ramen &&& 0x0F#8 = 0x0A#8) :
    ∃ t, run (n + 1) s = .next t ∧ t.reply = some (.data (c.image.read (ramOff r a))) ∧ t.queue = rest := by
  obtain ⟨t, hrun, hc, hl, hq⟩ := h
  exact ⟨_, run_snoc n s t _ hrun (step_readRam hlo hhi t c d rest ⟨hl, hq⟩ hc hcap hopen), rfl, rfl⟩

end

/-- One write for each register, each at the lowest address of its window. -/
def regWrites (r : Mbc1Regs) : List BusWord :=
  [busWord true 0x0000#16 r.ramen, busWord true 0x2000#16 r.romb, busWord true 0x4000#16 r.ramb,
    busWord true 0x6000#16 r.mode]

theorem coerceRomb_of_ne (d : Byte) (h : d ≠ 0x00#8) : coerceRomb d = d := if_neg h

/-- Writing each register leaves nothing of the registers before (R167). -/
theorem runsTo_regWrites (s : State) (c : Cartridge) (r r' : Mbc1Regs) (hc : s.HasMbc1 c r) (hl : s.loading = none)
    (hcap : 0x6000 < c.image.capacity) (hromb : r'.romb ≠ 0x00#8) :
    RunsTo 4 (s.setQueue ((regWrites r').map .bus ++ s.queue)) (c.setRegs r') r' s.queue := by
  have start : RunsTo 0 (s.setQueue ((regWrites r').map .bus ++ s.queue)) c r _ := .zero hc hl rfl
  have ramen := start.writeReg (Nat.lt_trans (by decide) hcap) (decodeMbc1Write_ramen (by decide) _) (.ramen _)
  have romb := ramen.writeReg (Nat.lt_trans (by decide) hcap) (decodeMbc1Write_romb (by decide) (by decide) _) (.romb _)
  rw [coerceRomb_of_ne _ hromb] at romb
  have ramb := romb.writeReg (Nat.lt_trans (by decide) hcap) (decodeMbc1Write_ramb (by decide) (by decide) _) (.ramb _)
  exact ramb.writeReg hcap (decodeMbc1Write_mode (by decide) (by decide) _) (.mode _)

end Sys2Proof.Machine
end

section
/-! PROOFS. The MBC1 writes: what each changes and leaves, and what a later transaction sees of it
(spec/44_mbc1_write.md). -/

namespace Sys2Proof.Proofs

open Sys2Proof.Machine

/-- Settles O18: the guard, then the gate; an address that passes the guard has its offset in the image (R58), so that a
write through the open gate never fails. -/
theorem writeOfTheRamWindow : Obligations.WriteOfTheRamWindow := by
  intro s c r a d off hc hwf hlo hhi hoff
  have hram : ramOff r a = off := (ramOff_eq r a hlo).trans hoff.symm
  rw [exec_wrRam hc, hram]
  refine ⟨?decode, fun hcap => ?atOrAbove, fun hcap hclosed => ?gateClosed, fun hcap hopen => ?gateOpen⟩
  case decode => rw [decodeBus_mbc1_write, decodeMbc1Write_ram hlo hhi]
  case atOrAbove => exact guarded_of_le c a s _ hcap
  case gateClosed => exact (guarded_of_lt c a s _ hcap).trans (gated_of_closed r s _ hclosed)
  case gateOpen =>
    have hin : off < c.image.capacity := hram ▸ ramOff_lt_capacity hlo hhi c.image hcap
    refine ⟨c.image.write off d, ?_, rfl, ?_, fun o ho => ?_⟩
    · rw [guarded_of_lt c a s _ hcap, gated_of_open r s _ hopen, writeImage_of_lt c off d s hin, Cartridge.setImage]
    · rw [Image.read_write c.image off d off hwf, if_pos rfl]
    · rw [Image.read_write c.image off d o hwf, if_neg ho]

/-- Settles O26: an operation under which the registers differ is a register write that has passed the guard. -/
theorem registersChangeByTheirOwnWrites : Obligations.RegistersChangeByTheirOwnWrites := by
  intro i s t c r c' r' h hv hc hc' hne
  rcases exec_sameCtrl_or_regWrite i s t c r hv hc h with hsame | ⟨a, r₁, hw, rfl⟩
  · exact absurd (hsame.regs_eq hc hc') hne
  · obtain ⟨hcart', hctrl'⟩ := hc'
    obtain rfl : c.setRegs r₁ = c' := Option.some.inj hcart'
    obtain rfl : r₁ = r' := Controller.mbc1.inj hctrl'
    refine ⟨rfl, rfl, rfl, rfl, rfl, a, ?_⟩
    cases hw with
    | ramen d => exact ⟨d, .inl ⟨rfl, rfl⟩⟩
    | romb d => exact ⟨d, .inr (.inl ⟨rfl, rfl⟩)⟩
    | ramb d => exact ⟨d, .inr (.inr (.inl ⟨rfl, rfl⟩))⟩
    | mode d => exact ⟨d, .inr (.inr (.inr ⟨rfl, rfl⟩))⟩

/-- Settles O39: a bank's slice is as long as the window. -/
theorem ramBanksAreDisjoint : Obligations.RamBanksAreDisjoint :=
  fun _ _ _ _ hlo hhi hlo' hhi' hmode hmode' => ramOff_inj hlo hhi hlo' hhi' hmode hmode'

/-- Settles O42: the write and the read have the same offset. -/
theorem ramReadReturnsTheByteWritten : Obligations.RamReadReturnsTheByteWritten := by
  intro s c r a d x rest ⟨hl, hq⟩ hc hwf hlo hhi hcap hopen
  have written := (RunsTo.zero hc hl hq).writeRam hlo hhi hcap hopen
  obtain ⟨t, hrun, hreply, hqueue⟩ := written.readRam hlo hhi hcap hopen
  refine ⟨t, hrun, ?_, hqueue⟩
  rw [hreply, Cartridge.setImage_image, Image.read_write c.image _ d _ hwf, if_pos rfl]

/-- Settles O43: the write in the other bank has another offset, and with the first bank selected again the registers are
what they were. -/
theorem otherRamBanksAreNotPerturbed : Obligations.OtherRamBanksAreNotPerturbed := by
  intro s c r a p q d e b x rest ⟨hl, hq⟩ hc hwf hlo hhi hcap hplo hphi hqlo hqhi hopen hmode hbank
  have hother : ramOff r a ≠ ramOff (r.setRamb b) a := fun hoff =>
    hbank (ramOff_inj hlo hhi hlo hhi (r' := r.setRamb b) hmode hmode hoff).1.symm
  have hwf' := c.image.write_wf _ d hwf (ramOff_lt_capacity hlo hhi (r := r) c.image hcap)
  have hpcap : p.toNat < c.image.capacity := by omega
  have hqcap : q.toNat < c.image.capacity := by omega
  have first := (RunsTo.zero hc hl hq).writeRam hlo hhi hcap hopen
  have selected := first.writeReg hpcap (decodeMbc1Write_ramb hplo hphi b) (.ramb b)
  have second := selected.writeRam hlo hhi hcap hopen
  have back := second.writeReg hqcap (decodeMbc1Write_ramb hqlo hqhi r.ramb) (.ramb r.ramb)
  obtain ⟨t, hrun, hreply, hqueue⟩ := back.readRam hlo hhi hcap hopen
  refine ⟨t, hrun, hreply.trans (congrArg (fun y => some (Reply.data y)) ?_), hqueue⟩
  calc ((c.image.write (ramOff r a) d).write (ramOff (r.setRamb b) a) e).read (ramOff r a)
    _ = (c.image.write (ramOff r a) d).read (ramOff r a) := by rw [Image.read_write _ _ e _ hwf', if_neg hother]
    _ = d := by rw [Image.read_write c.image _ d _ hwf, if_pos rfl]

/-- Settles O46: one write for each register; a byte other than 0x00 is stored in `ROMB` as it is. -/
theorem everyRegisterStateIsReachable : Obligations.EveryRegisterStateIsReachable := by
  intro s c r r' hc hl hcap hromb
  obtain ⟨t, hrun, ⟨hcart, -⟩, hloading, hqueue⟩ := runsTo_regWrites s c r r' hc hl hcap hromb
  exact ⟨regWrites r', Nat.le_refl 4, by simp [regWrites], t, hrun, hcart, hqueue, hloading⟩

/-- Settles O14: WR.RAMEN is a register write. -/
theorem writeOfTheRamEnableRegister : Obligations.WriteOfTheRamEnableRegister := by
  intro s c r a d hc hhi
  rw [decodeBus_mbc1_write]
  exact ⟨decodeMbc1Write_ramen hhi d, exec_regWrite_of_le hc (.ramen d), exec_regWrite_of_lt hc (.ramen d)⟩

/-- Settles O15: WR.ROMB is a register write, and it stores the same for 0x00 and 0x01. -/
theorem writeOfTheRomBankRegister : Obligations.WriteOfTheRomBankRegister := by
  intro s c r a d hc hlo hhi
  rw [decodeBus_mbc1_write]
  refine ⟨decodeMbc1Write_romb hlo hhi d, exec_regWrite_of_le hc (.romb d), exec_regWrite_of_lt hc (.romb d), ?_⟩
  have hcoerce : coerceRomb 0x00#8 = coerceRomb 0x01#8 := rfl
  rw [exec_regWrite hc (.romb 0x00#8), exec_regWrite hc (.romb 0x01#8), hcoerce]

/-- Settles O16: WR.RAMB is a register write. -/
theorem writeOfTheRamBankRegister : Obligations.WriteOfTheRamBankRegister := by
  intro s c r a d hc hlo hhi
  rw [decodeBus_mbc1_write]
  exact ⟨decodeMbc1Write_ramb hlo hhi d, exec_regWrite_of_le hc (.ramb d), exec_regWrite_of_lt hc (.ramb d)⟩

/-- Settles O17: WR.MODE is a register write. -/
theorem writeOfTheModeRegister : Obligations.WriteOfTheModeRegister := by
  intro s c r a d hc hlo hhi
  rw [decodeBus_mbc1_write]
  exact ⟨decodeMbc1Write_mode hlo hhi d, exec_regWrite_of_le hc (.mode d), exec_regWrite_of_lt hc (.mode d)⟩

end Sys2Proof.Proofs
end

section
/-! SUPPORT. The selector's two ways to end a LOAD (R211 steps 7 to 9), and the rows that take the second (R173 to R178). -/

namespace Sys2Proof.Machine

/-- With an accepted header a build makes the cartridge (R171, R172). -/
theorem build_of_loading (ctrl : Controller) (s : State) (l : Loading) (h : s.loading = some l) :
    build ctrl s =
      .next (((s.setCart (some ⟨l.image, l.hdr, ctrl⟩)).setLoading none).setReply (some .ok)) :=
  onAccepted_eq s l h _

/-- With an accepted header a rejection answers the error and drops the header (R173 to R178). -/
theorem reject_of_loading (s : State) (l : Loading) (h : s.loading = some l) :
    reject s = .next ((s.setLoading none).setReply (some (.err .unsupportedCartridgeError))) :=
  onAccepted_eq s l h _

/-- The rows of the classes that are named and not implemented (R173 to R177). -/
def unimplementedRows : List Instr :=
  [.ctMbc2T05, .ctMbc2T06, .ctMbc3T0F, .ctMbc3T10, .ctMbc3T11, .ctMbc3T12, .ctMbc3T13, .ctMbc4T15, .ctMbc4T16,
    .ctMbc4T17, .ctMbc5T19, .ctMbc5T1A, .ctMbc5T1B, .ctMbc5T1C, .ctMbc5T1D, .ctMbc5T1E, .ctHuc1]

/-- The named type bytes above 0x03 are the unimplemented classes'. -/
theorem decodeCt_of_named : ∀ t ∈ namedTypes, 0x03 < t.toNat → decodeCt t ∈ unimplementedRows := by
  decide

/-- A type byte above 0x03 is an unimplemented class's, or no row names it (R88). -/
theorem decodeCt_of_above (t : Byte) (h : 0x03 < t.toNat) : decodeCt t ∈ unimplementedRows ++ [.ctUnknown t] := by
  rw [List.mem_append, List.mem_singleton]
  cases hn : namedTypes.contains t with
  | true => exact .inl (decodeCt_of_named t (List.contains_iff_mem.mp hn) h)
  | false => exact .inr (decodeCt_of_not_named t hn)

theorem exec_of_unimplemented (s : State) (i : Instr) (h : i ∈ unimplementedRows) : exec i s = reject s := by
  unfold unimplementedRows at h
  fin_cases h <;> rfl

/-- The three CT.MBC1 rows are one operation (R172). -/
theorem exec_ctMbc1 (s : State) (i : Instr) (h : i ∈ [Instr.ctMbc1T01, .ctMbc1T02, .ctMbc1T03]) :
    exec i s = build (.mbc1 Mbc1Regs.afterLoad) s := by
  fin_cases h <;> rfl

end Sys2Proof.Machine
end

section
/-! PROOFS. The cartridge-type selector (spec/45_factory.md R171 to R178). -/

namespace Sys2Proof.Proofs

open Sys2Proof.Machine

/-- Settles O24: above 0x03 every row is an unimplemented class's or the default's, and each of these rejects. -/
theorem selectorRejectsTheRest : Obligations.SelectorRejectsTheRest := by
  refine ⟨decodeCt_of_above, fun s l i hl hi => ?_⟩
  have hreject : exec i s = reject s := by
    rcases hi with hnamed | ⟨t, rfl⟩
    · exact exec_of_unimplemented s i hnamed
    · rfl
  rw [hreject, reject_of_loading s l hl]

/-- Settles O22: CT.NOBANK builds a cartridge without registers. -/
theorem selectorBuildsNobank : Obligations.SelectorBuildsNobank :=
  ⟨rfl, build_of_loading .nobank⟩

/-- Settles O23: each CT.MBC1 row builds a cartridge with the reset values of the registers. -/
theorem selectorBuildsMbc1 : Obligations.SelectorBuildsMbc1 :=
  ⟨⟨rfl, rfl, rfl⟩, fun s l i hl hi =>
    (exec_ctMbc1 s i hi).trans (build_of_loading (.mbc1 Mbc1Regs.afterLoad) s l hl)⟩

end Sys2Proof.Proofs
end

section
/-! SUPPORT. What a served transaction answers (R193, R194): whatever reply stood before, and with the cartridge as it
was where the answer is an error. -/

namespace Sys2Proof.Machine

/-- `f` answers in `s`, whatever reply stood there before, and changes at most the cartridge and the reply; not the
cartridge where the reply is an error. -/
def Answers (s : State) (f : State → Host.Outcome State Fault Refusal) : Prop :=
  ∃ c k, (∀ k', f (s.setReply k') = .next ((s.setCart c).setReply (some k))) ∧ ∀ e, k = .err e → c = s.cart

section
variable {s : State} {f g : State → Host.Outcome State Fault Refusal}

theorem Answers.answer (k : Reply) : Answers s (answer k) := ⟨s.cart, k, fun _ => rfl, fun _ _ => rfl⟩

theorem Answers.answer_ok (c : Cartridge) : Answers s fun s => Machine.answer .ok (s.setCart (some c)) :=
  ⟨some c, .ok, fun _ => rfl, nofun⟩

theorem Answers.ite {p : Prop} [Decidable p] (hf : Answers s f) (hg : Answers s g) :
    Answers s fun s => if p then f s else g s := by
  by_cases hp : p
  · simpa only [if_pos hp] using hf
  · simpa only [if_neg hp] using hg

theorem Answers.readImage (c : Cartridge) (off : Nat) : Answers s (readImage c off) := .ite (.answer _) (.answer _)

theorem Answers.writeImage (c : Cartridge) (off : Nat) (d : Byte) : Answers s (writeImage c off d) :=
  .ite (.answer_ok _) (.answer _)

theorem Answers.guarded (c : Cartridge) (a : Addr) (hf : Answers s f) : Answers s fun s => guarded c a s (f s) :=
  .ite hf (.answer _)

theorem Answers.gated (r : Mbc1Regs) (hf : Answers s f) : Answers s fun s => gated r s (f s) := .ite hf (.answer _)

theorem Answers.onMbc1 {c : Cartridge} {r : Mbc1Regs} (hc : s.HasMbc1 c r)
    {body : State → Cartridge → Mbc1Regs → Host.Outcome State Fault Refusal} (hb : Answers s fun s => body s c r) :
    Answers s fun s => onMbc1 s (body s) := by
  obtain ⟨c', k, hbody, herr⟩ := hb
  exact ⟨c', k, fun k' => (onMbc1_eq (s.setReply k') c r hc _).trans (hbody k'), herr⟩

theorem Answers.onNobank {c : Cartridge} (hc : s.HasNobank c)
    {body : State → Cartridge → Host.Outcome State Fault Refusal} (hb : Answers s fun s => body s c) :
    Answers s fun s => onNobank s (body s) := by
  obtain ⟨c', k, hbody, herr⟩ := hb
  exact ⟨c', k, fun k' => (onNobank_eq (s.setReply k') c hc _).trans (hbody k'), herr⟩

/-- Every operation of the MBC1 table answers on an MBC1 cartridge. -/
theorem exec_answers_mbc1 {c : Cartridge} {r : Mbc1Regs} (hc : s.HasMbc1 c r) (i : Instr)
    (hv : i.variant? = some .mbc1) : Answers s (exec i) := by
  cases i
  case rdRom0 a | rdRomx a => exact .onMbc1 hc (.guarded c a (.readImage c _))
  case rdRam a => exact .onMbc1 hc (.guarded c a (.gated r (.readImage c _)))
  case wrRam a d => exact .onMbc1 hc (.guarded c a (.gated r (.writeImage c _ d)))
  case wrRamen a d | wrRomb a d | wrRamb a d | wrMode a d => exact .onMbc1 hc (.guarded c a (.answer_ok _))
  case rdUnmapped8 a | rdUnmappedC a | wrUnmapped8 a d | wrUnmappedC a d => exact .onMbc1 hc (.answer _)
  all_goals cases hv

/-- Every operation of the NOBANK table answers on a NOBANK cartridge. -/
theorem exec_answers_nobank {c : Cartridge} (hc : s.HasNobank c) (i : Instr) (hv : i.variant? = some .nobank) :
    Answers s (exec i) := by
  cases i
  case nbRdRom a => exact .onNobank hc (.readImage c _)
  case nbRdUnmapped a | nbWr a d => exact .onNobank hc (.answer _)
  all_goals cases hv

/-- Every operation answers on a cartridge of its own variant. -/
theorem exec_answers {c : Cartridge} (hc : s.cart = some c) (i : Instr) (hv : i.variant? = some c.variant) :
    Answers s (exec i) := by
  cases hctrl : c.ctrl with
  | mbc1 r => exact exec_answers_mbc1 ⟨hc, hctrl⟩ i (by rw [hv, Cartridge.variant, hctrl, Controller.variant_mbc1])
  | nobank => exact exec_answers_nobank ⟨hc, hctrl⟩ i (by rw [hv, Cartridge.variant, hctrl, Controller.variant_nobank])

end

section
variable {s t : State} {w : BusWord} {rest : List Request} (hnext : s.NextIs w rest)
include hnext

/-- A transaction is served to an existing cartridge whatever reply stood before (R213). -/
theorem step_bus_answers {c : Cartridge} (hc : s.cart = some c) :
    ∃ c' k, (∀ k', step (s.setReply k') = .next (((s.setQueue rest).setCart c').setReply (some k))) ∧
      ∀ e, k = .err e → c' = s.cart := by
  obtain ⟨c', k, hexec, herr⟩ := exec_answers (s := s.setQueue rest) hc _ (decodeBus_variant c.variant w)
  exact ⟨c', k, fun k' => (step_bus (s.setReply k') c w rest hnext hc).trans (hexec k'), herr⟩

/-- A transaction that replies an error changes the reply and takes its request, and that is all (R193). -/
theorem step_bus_err {e : ErrorKind} (h : step s = .next t) (he : t.reply = some (.err e)) :
    t = (s.setQueue rest).setReply (some (.err e)) := by
  cases hc : s.cart with
  | none => rw [step_noCartridge s w rest hnext hc] at h; cases h
  | some c =>
    obtain ⟨c', k, hstep, herr⟩ := step_bus_answers hnext hc
    obtain rfl := Host.Outcome.next.inj (h.symm.trans (hstep s.reply))
    obtain rfl : k = .err e := Option.some.inj he
    rw [herr e rfl]
    rfl

end

theorem beginLoad_setReply (src : Source) (s : State) (k : Option Reply) :
    beginLoad src (s.setReply k) = beginLoad src s := by
  unfold beginLoad
  split
  · rfl
  · split <;> rfl

/-- The reply that stands there plays no part in how the next request is served (R194, log 2). -/
theorem step_setReply (s : State) (k : Option Reply) (q : Request) (rest : List Request) (hl : s.loading = none)
    (hq : s.queue = q :: rest) : step (s.setReply k) = step s := by
  cases q with
  | load src =>
    rw [step_load s src rest hl hq, step_load (s.setReply k) src rest hl hq]
    exact beginLoad_setReply src (s.setQueue rest) k
  | bus w =>
    cases hc : s.cart with
    | none => rw [step_noCartridge s w rest ⟨hl, hq⟩ hc, step_noCartridge (s.setReply k) w rest ⟨hl, hq⟩ hc]
    | some c =>
      obtain ⟨_, _, hstep, -⟩ := step_bus_answers ⟨hl, hq⟩ hc
      exact (hstep k).trans (hstep s.reply).symm

end Sys2Proof.Machine
end

section
/-! SUPPORT. Who replies `RamDisabledError`: the gate, and nothing else (R186). -/

namespace Sys2Proof

/-- Every word is a packed transaction (R80). -/
theorem BusWord.exists_busWord (w : BusWord) : ∃ b a d, w = busWord b a d := ⟨_, _, _, BusWord.eq_busWord w⟩

/-- An operation of the RAM window: the ones that the gate stands before (R56). -/
def Instr.isRam : Instr → Bool
  | .rdRam _ | .wrRam _ _ => true
  | _ => false

theorem isRam_decodeBus_mbc1 (b : Bool) (a : Addr) (d : Byte) (h : ¬ AddressValue.inRange a 0xA000 0xBFFF = true) :
    (decodeBus .mbc1 (busWord b a d)).isRam = false := by
  cases b with
  | false => rw [decodeBus_mbc1_read, decodeMbc1Read_inRange, if_neg h]; split_ifs <;> rfl
  | true => rw [decodeBus_mbc1_write, decodeMbc1Write_inRange, if_neg h]; split_ifs <;> rfl

theorem isRam_decodeBus_nobank (b : Bool) (a : Addr) (d : Byte) :
    (decodeBus .nobank (busWord b a d)).isRam = false := by
  cases b with
  | false => rw [decodeBus_nobank_read]; split_ifs <;> rfl
  | true => rw [decodeBus_nobank_write]; rfl

end Sys2Proof

namespace Sys2Proof.Machine

/-- An outcome that is no reply of `RamDisabledError`. -/
def NoGateError (o : Host.Outcome State Fault Refusal) : Prop :=
  ∀ t, o = .next t → t.reply ≠ some (.err .ramDisabledError)

section
variable {s : State} {o o' : Host.Outcome State Fault Refusal}

theorem NoGateError.answer {k : Reply} (hk : k ≠ .err .ramDisabledError) : NoGateError (answer k s) := by
  intro t h
  rw [answer_next k s t h]
  exact fun herr => hk (Option.some.inj herr)

theorem NoGateError.ite {p : Prop} [Decidable p] (ho : NoGateError o) (ho' : NoGateError o') :
    NoGateError (if p then o else o') := by
  split
  · exact ho
  · exact ho'

theorem NoGateError.readImage (c : Cartridge) (off : Nat) : NoGateError (readImage c off s) :=
  .ite (.answer nofun) (.answer nofun)

theorem NoGateError.writeImage (c : Cartridge) (off : Nat) (d : Byte) : NoGateError (writeImage c off d s) :=
  .ite (.answer nofun) (.answer nofun)

theorem NoGateError.guarded (c : Cartridge) (a : Addr) (ho : NoGateError o) : NoGateError (guarded c a s o) :=
  .ite ho (.answer nofun)

theorem NoGateError.onMbc1 {body : Cartridge → Mbc1Regs → Host.Outcome State Fault Refusal}
    (hb : ∀ c r, NoGateError (body c r)) : NoGateError (onMbc1 s body) := by
  intro t h
  obtain ⟨c, r, -, hn⟩ := onMbc1_next s t body h
  exact hb c r t hn

theorem NoGateError.onNobank {body : Cartridge → Host.Outcome State Fault Refusal}
    (hb : ∀ c, NoGateError (body c)) : NoGateError (onNobank s body) := by
  intro t h
  obtain ⟨c, -, hn⟩ := onNobank_next s t body h
  exact hb c t hn

/-- The bus operations outside the RAM window never reply `RamDisabledError`. -/
theorem exec_noGateError (s : State) (i : Instr) (v : Variant) (hv : i.variant? = some v) (hi : i.isRam = false) :
    NoGateError (exec i s) := by
  cases i
  case rdRom0 a | rdRomx a => exact .onMbc1 fun c r => .guarded c a (.readImage c _)
  case wrRamen a d | wrRomb a d | wrRamb a d | wrMode a d =>
    exact .onMbc1 fun c r => .guarded c a (.answer nofun)
  case rdUnmapped8 a | rdUnmappedC a | wrUnmapped8 a d | wrUnmappedC a d =>
    exact .onMbc1 fun c r => .answer nofun
  case nbRdRom a => exact .onNobank fun c => .readImage c _
  case nbRdUnmapped a | nbWr a d => exact .onNobank fun c => .answer nofun
  case rdRam a | wrRam a d => cases hi
  all_goals cases hv

/-- Behind the guard, the gate replies `RamDisabledError` exactly when it is closed (R190). -/
theorem gateError_iff {t : State} {c : Cartridge} {r : Mbc1Regs} {a : Addr} (ho : NoGateError o)
    (h : guarded c a s (gated r s o) = .next t) :
    t.reply = some (.err .ramDisabledError) ↔ a.toNat < c.image.capacity ∧ r.ramen &&& 0x0F#8 ≠ 0x0A#8 := by
  rcases guarded_next c a s t _ h with ⟨hcap, hn⟩ | ⟨hcap, rfl⟩
  · rcases gated_next r s t _ hn with ⟨hopen, hn⟩ | ⟨hclosed, rfl⟩
    · exact iff_of_false (ho t hn) fun h => h.2 ((ramOn_iff r).mp hopen)
    · exact iff_of_true rfl ⟨hcap, fun hopen => by rw [(ramOn_iff r).mpr hopen] at hclosed; cases hclosed⟩
  · exact iff_of_false nofun fun h => Nat.not_lt.mpr hcap h.1

/-- In the RAM window both directions are an access of the image behind the guard and the gate (R152, R164). -/
theorem exec_ramWindow {c : Cartridge} {r : Mbc1Regs} {a : Addr} (hc : s.HasMbc1 c r) (hlo : 0xA000 ≤ a.toNat)
    (hhi : a.toNat ≤ 0xBFFF) (b : Bool) (d : Byte) :
    ∃ o, NoGateError o ∧ exec (decodeBus .mbc1 (busWord b a d)) s = guarded c a s (gated r s o) := by
  cases b with
  | false =>
    rw [decodeBus_mbc1_read, decodeMbc1Read_ram hlo hhi]
    exact ⟨_, .readImage c _, exec_rdRam hc a⟩
  | true =>
    rw [decodeBus_mbc1_write, decodeMbc1Write_ram hlo hhi]
    exact ⟨_, .writeImage c _ d, exec_wrRam hc a d⟩

end

end Sys2Proof.Machine
end

section
/-! SUPPORT. The ends of a LOAD that fails, each with an empty slot (R191, R211). -/

namespace Sys2Proof.Machine

section
variable {src : Source} {bytes : List Byte} (s : State) (hd : src.deliver = some bytes)
include hd

/-- LOAD of bytes whose header `PARSE` rejects replies the error of `PARSE`. -/
theorem beginLoad_of_parse_error (k : ErrorKind) (hp : parse (headerSlice bytes) = .error k) :
    beginLoad src s = .next { cart := none, loading := none, queue := s.queue, reply := some (.err k) } := by
  simp only [beginLoad, hd, hp]
  rfl

/-- LOAD of bytes whose header `PARSE` accepts leaves it to the selector (log 3). -/
theorem beginLoad_of_parse_ok (h : Header) (hp : parse (headerSlice bytes) = .ok h) :
    beginLoad src s =
      .next { cart := none, loading := some ⟨Image.ofBytes bytes, h⟩, queue := s.queue, reply := none } := by
  simp only [beginLoad, hd, hp]
  rfl

end

/-- The selector's step on a type byte that gives no variant (R173 to R178). -/
theorem step_selector_of_unsupported (s : State) (l : Loading) (hl : s.loading = some l)
    (hv : variantOfType l.hdr.typeByte = none) :
    step s = .next ((s.setLoading none).setReply (some (.err .unsupportedCartridgeError))) := by
  rw [step_selector s l hl]
  rcases selector_cases l.hdr.typeByte s with ⟨hv', -⟩ | ⟨hv', -⟩ | ⟨-, hreject⟩
  · cases hv.symm.trans hv'
  · cases hv.symm.trans hv'
  · rw [hreject, reject_of_loading s l hl]

end Sys2Proof.Machine
end

section
/-! PROOFS. The errors: what they leave of the state, how service goes on, and when each is raised
(spec/60_exceptions.md). -/

namespace Sys2Proof.Proofs

open Sys2Proof.Machine

/-- Settles O28: a transaction that replies an error changes the reply only, and both steps of a LOAD that reply one leave
the slot empty. -/
theorem errorsChangeNothing : Obligations.ErrorsChangeNothing := by
  refine ⟨fun s t w rest e hnext h he => ?transaction, fun s t src rest e hl _ hq h he => ?load,
    fun s t l e hl hc h he => ?selector⟩
  case transaction =>
    rw [step_bus_err hnext h he]
    exact ⟨rfl, hnext.1, rfl⟩
  case load =>
    rw [step_load s src rest hl hq] at h
    rcases beginLoad_next src _ t h with ⟨k, rfl⟩ | ⟨bytes, hdr, -, -, -, -, rfl⟩
    · exact ⟨rfl, rfl, rfl⟩
    · cases he
  case selector =>
    rcases step_selector_next s t l hl h with ⟨ctrl, -, -, rfl⟩ | ⟨-, rfl⟩
    · cases he
    · exact ⟨hc, rfl, rfl⟩

/-- Settles O29: the state after the error differs from the one without the failing transaction in the reply only, which
no request looks at; and the cartridge that answered the error is still there to answer. -/
theorem serviceGoesOnAfterAnError : Obligations.ServiceGoesOnAfterAnError := by
  intro s t w q rest e hnext h he
  obtain rfl := step_bus_err hnext h he
  refine ⟨step_setReply (s.setQueue (q :: rest)) _ q rest hnext.1 rfl, fun w' hq => ?_⟩
  obtain ⟨-, -, c, -, hc, -⟩ := step_bus_next s _ w _ hnext h
  subst hq
  obtain ⟨c', k, hstep, -⟩ := step_bus_answers (s := s.setQueue (.bus w' :: rest)) ⟨hnext.1, rfl⟩ hc
  exact ⟨_, hstep _⟩

/-- Settles O31: in the RAM window the gate stands behind the guard, and no operation outside it replies the gate's
error. -/
theorem ramDisabledExactlyWhenTheGateIsClosed : Obligations.RamDisabledExactlyWhenTheGateIsClosed := by
  refine ⟨fun s t c r w rest hnext hc h => ?mbc1, fun s t c w rest hnext ⟨hcart, hctrl⟩ h => ?nobank⟩
  case mbc1 =>
    rw [step_mbc1 s c r w rest hnext hc] at h
    obtain ⟨b, a, d, rfl⟩ := BusWord.exists_busWord w
    rw [BusWord.addr_busWord]
    by_cases hwin : AddressValue.inRange a 0xA000 0xBFFF = true
    · obtain ⟨hlo, hhi⟩ := (inRange_iff a _ _).mp hwin
      obtain ⟨o, ho, hexec⟩ := exec_ramWindow (s := s.setQueue rest) hc hlo hhi b d
      rw [and_iff_right hwin]
      exact gateError_iff ho (hexec.symm.trans h)
    · have hno := exec_noGateError (s.setQueue rest) _ _ (decodeBus_variant _ _) (isRam_decodeBus_mbc1 b a d hwin)
      exact iff_of_false (hno t h) fun hgate => hwin hgate.1
  case nobank =>
    rw [step_bus s c w rest hnext hcart, Cartridge.variant, hctrl, Controller.variant_nobank] at h
    obtain ⟨b, a, d, rfl⟩ := BusWord.exists_busWord w
    exact exec_noGateError _ _ _ (decodeBus_variant _ _) (isRam_decodeBus_nobank b a d) t h

/-- Settles O48: the four checks in their order; each first-step error empties the slot, and an accepted header of an
unsupported type is dropped by the selector. -/
theorem loadErrorsInOrder : Obligations.LoadErrorsInOrder := by
  intro s src rest hl hq
  rw [step_load s src rest hl hq]
  refine ⟨?undelivered, fun bytes hsrc => ?delivered⟩
  case undelivered =>
    rintro ⟨readable, seekable, bytes, rfl, hfail⟩
    exact beginLoad_of_undelivered _ _ (Source.deliver_stream_failed _ _ _ (Bool.and_eq_false_iff.mp hfail))
  case delivered =>
    have hd : src.deliver = some bytes := by rcases hsrc with rfl | rfl <;> rfl
    refine ⟨fun hshort => ?tooShort, fun _ h hh => ⟨fun hne => ?checksum, fun hvalid hv => ?unsupported⟩⟩
    case tooShort =>
      have hlen : (headerSlice bytes).length ≠ 80 := mt (headerSlice_room bytes) (Nat.not_le.mpr hshort)
      exact beginLoad_of_parse_error _ hd _ (parse_of_length_ne _ hlen)
    case checksum =>
      have hp : parse (headerSlice bytes) = .error .checksumError := by
        rw [headerSlice_eq bytes h hh, parse_toList_error h hne]
      exact beginLoad_of_parse_error _ hd _ hp
    case unsupported =>
      have hp : parse (headerSlice bytes) = .ok h := by
        rw [headerSlice_eq bytes h hh, (parse_toList_ok_iff h).mpr hvalid]
      have hfirst := (step_load s src rest hl hq).trans (beginLoad_of_parse_ok _ hd h hp)
      exact run_two s _ _ hfirst (step_selector_of_unsupported _ _ rfl hv)

end Sys2Proof.Proofs
end

section
/-! SUPPORT. The encoder against the decoder, both ways, on words and on bytes (R80 to R88, D10). -/

namespace Sys2Proof

open Machine in
/-- A well-formed MBC1 operation lies in the window that its row decodes from (R84, R85). -/
theorem decode_encode_mbc1 (i : Instr) (hwf : i.wf = true) (hv : i.variant? = some .mbc1) :
    decode .mbc1 (encode i) = i := by
  have window {a : Addr} {lo hi : BitVec 16} (h : AddressValue.inRange a lo hi = true) :
      lo.toNat ≤ a.toNat ∧ a.toNat ≤ hi.toNat := (inRange_iff a lo hi).mp h
  cases i
  case rdRom0 a => exact (decodeBus_mbc1_read a _).trans (decodeMbc1Read_fixed (window hwf).2)
  case rdRomx a => exact (decodeBus_mbc1_read a _).trans (decodeMbc1Read_switchable (window hwf).1 (window hwf).2)
  case rdUnmapped8 a =>
    exact (decodeBus_mbc1_read a _).trans (decodeMbc1Read_unmapped8 (window hwf).1 (window hwf).2)
  case rdRam a => exact (decodeBus_mbc1_read a _).trans (decodeMbc1Read_ram (window hwf).1 (window hwf).2)
  case rdUnmappedC a => exact (decodeBus_mbc1_read a _).trans (decodeMbc1Read_unmappedC (window hwf).1)
  case wrRamen a d => exact (decodeBus_mbc1_write a d).trans (decodeMbc1Write_ramen (window hwf).2 d)
  case wrRomb a d => exact (decodeBus_mbc1_write a d).trans (decodeMbc1Write_romb (window hwf).1 (window hwf).2 d)
  case wrRamb a d => exact (decodeBus_mbc1_write a d).trans (decodeMbc1Write_ramb (window hwf).1 (window hwf).2 d)
  case wrMode a d => exact (decodeBus_mbc1_write a d).trans (decodeMbc1Write_mode (window hwf).1 (window hwf).2 d)
  case wrUnmapped8 a d =>
    exact (decodeBus_mbc1_write a d).trans (decodeMbc1Write_unmapped8 (window hwf).1 (window hwf).2 d)
  case wrRam a d => exact (decodeBus_mbc1_write a d).trans (decodeMbc1Write_ram (window hwf).1 (window hwf).2 d)
  case wrUnmappedC a d => exact (decodeBus_mbc1_write a d).trans (decodeMbc1Write_unmappedC (window hwf).1 d)
  all_goals cases hv

/-- A well-formed NOBANK read is told by `A[15]`, and a NOBANK write by its direction alone (R86). -/
theorem decode_encode_nobank (i : Instr) (hwf : i.wf = true) (hv : i.variant? = some .nobank) :
    decode .nobank (encode i) = i := by
  cases i
  case nbRdRom a =>
    have hhi : a.toNat ≤ 0x7FFF := ((inRange_iff a _ _).mp hwf).2
    exact (decodeBus_nobank_read a _).trans (if_neg (by omega))
  case nbRdUnmapped a =>
    have hlo : 0x8000 ≤ a.toNat := ((inRange_iff a _ _).mp hwf).1
    exact (decodeBus_nobank_read a _).trans (if_pos hlo)
  case nbWr a d => exact decodeBus_nobank_write a d
  all_goals cases hv

/-- The variant plays no part for a type byte (R88). -/
theorem decode_encode_ct (i : Instr) (v : Variant) (hwf : i.wf = true) (hv : i.variant? = none) :
    decode v (encode i) = i := by
  cases i
  case ctUnknown t => exact decodeCt_of_not_named t (Bool.not_eq_true' _ |>.mp hwf)
  case rdRom0 | rdRomx | rdUnmapped8 | rdRam | rdUnmappedC => cases hv
  case wrRamen | wrRomb | wrRamb | wrMode | wrUnmapped8 | wrRam | wrUnmappedC => cases hv
  case nbRdRom | nbRdUnmapped | nbWr => cases hv
  all_goals rfl

/-- The four bytes of a word have no bit above bit 24, and read least significant first they are the word (log 13). -/
theorem decodeBytes_layoutBytes (v : Variant) (t : BusWord) :
    decodeBytes v (layoutBytes 4 t.toNat) = .ok (decode v (.bus t)) := by
  have ht := t.isLt
  have hreserved : BitVec.ofNat 8 (t.toNat / 256 / 256 / 256) &&& 0xFE#8 = 0#8 := by
    have hbit : t.toNat / 256 / 256 / 256 < 2 := by omega
    interval_cases t.toNat / 256 / 256 / 256 <;> rfl
  have hword : (BitVec.ofNat 8 (t.toNat / 256 / 256 / 256) ++ BitVec.ofNat 8 (t.toNat / 256 / 256) ++
      BitVec.ofNat 8 (t.toNat / 256) ++ BitVec.ofNat 8 t.toNat).setWidth 25 = t := by
    apply BitVec.eq_of_toNat_eq
    simp only [BitVec.toNat_setWidth, append_toNat, BitVec.toNat_ofNat]
    omega
  simp only [layoutBytes, decodeBytes, hword]
  exact if_pos hreserved

/-- An instruction's bytes are read as its word. -/
theorem decodeBytes_encodeBytes (v : Variant) (i : Instr) :
    decodeBytes v (encodeBytes i) = .ok (decode v (encode i)) := by
  unfold encodeBytes
  cases encode i with
  | bus t => exact decodeBytes_layoutBytes v t
  | ct t => rfl

/-! The other way: what a packed transaction and a type byte decode to. -/

theorem encode_decodeMbc1Read (a : Addr) : encode (decodeMbc1Read a) = .bus (busWord false a 0x00#8) := by
  rw [decodeMbc1Read_eq]
  split_ifs <;> rfl

theorem encode_decodeMbc1Write (a : Addr) (d : Byte) : encode (decodeMbc1Write a d) = .bus (busWord true a d) := by
  rw [decodeMbc1Write_eq]
  split_ifs <;> rfl

theorem encode_decodeBus_read (v : Variant) (a : Addr) (d : Byte) :
    encode (decodeBus v (busWord false a d)) = .bus (busWord false a 0x00#8) := by
  cases v with
  | mbc1 => rw [decodeBus_mbc1_read, encode_decodeMbc1Read]
  | nobank => rw [decodeBus_nobank_read]; split_ifs <;> rfl

theorem encode_decodeBus_write (v : Variant) (a : Addr) (d : Byte) :
    encode (decodeBus v (busWord true a d)) = .bus (busWord true a d) := by
  cases v with
  | mbc1 => rw [decodeBus_mbc1_write, encode_decodeMbc1Write]
  | nobank => rw [decodeBus_nobank_write]; rfl

/-! The ranges that the decoder tests are the windows that well-formedness asks for (R51, R52). -/

theorem inRange_of_le {a : Addr} {lo hi : BitVec 16} (hlo : lo.toNat ≤ a.toNat) (hhi : a.toNat ≤ hi.toNat) :
    AddressValue.inRange a lo hi = true := (inRange_iff a lo hi).mpr ⟨hlo, hhi⟩

theorem decodeMbc1Read_wf (a : Addr) : (decodeMbc1Read a).wf = true := by
  rw [decodeMbc1Read_eq]
  split_ifs with h3 h7 h9 hB
  · exact inRange_of_le (Nat.zero_le _) h3
  · exact inRange_of_le (Nat.lt_of_not_le h3) h7
  · exact inRange_of_le (Nat.lt_of_not_le h7) h9
  · exact inRange_of_le (Nat.lt_of_not_le h9) hB
  · exact inRange_of_le (Nat.lt_of_not_le hB) (Nat.le_of_lt_succ a.isLt)

theorem decodeMbc1Write_wf (a : Addr) (d : Byte) : (decodeMbc1Write a d).wf = true := by
  rw [decodeMbc1Write_eq]
  split_ifs with h1 h3 h5 h7 h9 hB
  · exact inRange_of_le (Nat.zero_le _) h1
  · exact inRange_of_le (Nat.lt_of_not_le h1) h3
  · exact inRange_of_le (Nat.lt_of_not_le h3) h5
  · exact inRange_of_le (Nat.lt_of_not_le h5) h7
  · exact inRange_of_le (Nat.lt_of_not_le h7) h9
  · exact inRange_of_le (Nat.lt_of_not_le h9) hB
  · exact inRange_of_le (Nat.lt_of_not_le hB) (Nat.le_of_lt_succ a.isLt)

theorem decodeBus_nobank_read_wf (a : Addr) (d : Byte) : (decodeBus .nobank (busWord false a d)).wf = true := by
  rw [decodeBus_nobank_read]
  split_ifs with h8
  · exact inRange_of_le h8 (Nat.le_of_lt_succ a.isLt)
  · exact inRange_of_le (Nat.zero_le _) (Nat.le_of_lt_succ (Nat.lt_of_not_le h8))

theorem decodeBus_wf (v : Variant) (t : BusWord) : (decodeBus v t).wf = true := by
  obtain ⟨b, a, d, rfl⟩ := BusWord.exists_busWord t
  cases v with
  | mbc1 =>
    cases b with
    | false => rw [decodeBus_mbc1_read]; exact decodeMbc1Read_wf a
    | true => rw [decodeBus_mbc1_write]; exact decodeMbc1Write_wf a d
  | nobank =>
    cases b with
    | false => exact decodeBus_nobank_read_wf a d
    | true => rw [decodeBus_nobank_write]; rfl

end Sys2Proof
end

section
/-! SUPPORT. What the decoder gives for a type byte is well-formed and encodes to the byte (R88). -/

namespace Sys2Proof

/-- A type byte's operation is well-formed and is encoded as the byte. -/
abbrev TypeByteRoundTrip (t : Byte) : Prop := (decodeCt t).wf = true ∧ encode (decodeCt t) = .ct t

theorem typeByteRoundTrip_of_named : ∀ t ∈ namedTypes, TypeByteRoundTrip t := by decide

theorem typeByteRoundTrip (t : Byte) : TypeByteRoundTrip t := by
  cases hn : namedTypes.contains t with
  | true => exact typeByteRoundTrip_of_named t (List.contains_iff_mem.mp hn)
  | false =>
    rw [TypeByteRoundTrip, decodeCt_of_not_named t hn]
    exact ⟨(Bool.not_eq_true' _).mpr hn, rfl⟩

end Sys2Proof
end

section
/-! PROOFS. The encoder and the decoder undo each other (spec/30_encoding.md sections 1 and 2). -/

namespace Sys2Proof.Proofs

open Sys2Proof.Machine

/-- Settles O8: a row decodes from the window that well-formedness asks for, and a type byte by either table. -/
theorem decodeOfEncodeIsTheInstruction : Obligations.DecodeOfEncodeIsTheInstruction := by
  intro i v hwf hv
  rcases hv with hct | hbus
  · exact decode_encode_ct i v hwf hct
  · cases v with
    | mbc1 => exact decode_encode_mbc1 i hwf hbus
    | nobank => exact decode_encode_nobank i hwf hbus

/-- Settles O9: the bytes are read as the word, and the word as the instruction. -/
theorem decodeOfEncodedBytesIsTheInstruction : Obligations.DecodeOfEncodedBytesIsTheInstruction := by
  intro i v hwf hv
  rw [decodeBytes_encodeBytes, decodeOfEncodeIsTheInstruction i v hwf hv]

/-- Settles O10: a word is the packing of its fields; the decoder keeps the address, and the data byte of a write. -/
theorem encodeOfDecodeIsTheWord : Obligations.EncodeOfDecodeIsTheWord := by
  refine ⟨fun v t => ⟨?wellFormed, decodeBus_variant v t, ?word⟩, typeByteRoundTrip⟩
  case wellFormed => exact decodeBus_wf v t
  case word =>
    obtain ⟨b, a, d, rfl⟩ := BusWord.exists_busWord t
    rw [BusWord.isWrite_busWord, BusWord.addr_busWord]
    cases b with
    | false => exact encode_decodeBus_read v a d
    | true => exact encode_decodeBus_write v a d

end Sys2Proof.Proofs
end

section
/-! SUPPORT. A step answers where there is something to answer (R213), the LOAD that builds a cartridge (R211), and the
image behind `State.reset` as such a LOAD (log 5). -/

namespace Sys2Proof.Machine

/-- The controller right after the LOAD of a cartridge of a variant (R33). -/
def Controller.afterLoad : Variant → Controller
  | .nobank => .nobank
  | .mbc1 => .mbc1 Mbc1Regs.afterLoad

theorem Controller.afterLoad_variant (v : Variant) : (Controller.afterLoad v).variant = v := by
  cases v <;> rfl

/-- The selector's step on a type byte that gives a variant (R171, R172). -/
theorem step_selector_of_variant (s : State) (l : Loading) (v : Variant) (hl : s.loading = some l)
    (hv : variantOfType l.hdr.typeByte = some v) :
    step s = .next (((s.setCart (some ⟨l.image, l.hdr, .afterLoad v⟩)).setLoading none).setReply (some .ok)) := by
  rw [step_selector s l hl]
  rcases selector_cases l.hdr.typeByte s with ⟨hv', hbuild⟩ | ⟨hv', hbuild⟩ | ⟨hv', -⟩
  · obtain rfl : v = .nobank := Option.some.inj (hv.symm.trans hv')
    rw [hbuild, build_of_loading _ s l hl, Controller.afterLoad]
  · obtain rfl : v = .mbc1 := Option.some.inj (hv.symm.trans hv')
    rw [hbuild, build_of_loading _ s l hl, Controller.afterLoad]
  · cases hv.symm.trans hv'

/-- The selector always answers: it builds or it rejects (R170). -/
theorem step_selector_answers (s : State) (l : Loading) (hl : s.loading = some l) : ∃ t, step s = .next t := by
  cases hv : variantOfType l.hdr.typeByte with
  | some v => exact ⟨_, step_selector_of_variant s l v hl hv⟩
  | none => exact ⟨_, step_selector_of_unsupported s l hl hv⟩

/-- The first step of a LOAD always answers (R211). -/
theorem beginLoad_answers (src : Source) (s : State) : ∃ t, beginLoad src s = .next t := by
  rcases beginLoad_cases src s with ⟨-, he⟩ | ⟨_, -, ⟨_, -, he⟩ | ⟨_, -, he⟩⟩ <;> exact ⟨_, he⟩

/-- A LOAD looks at nothing of the slot (R210). -/
theorem beginLoad_setCart (src : Source) (s : State) (c : Option Cartridge) :
    beginLoad src (s.setCart c) = beginLoad src s := by
  unfold beginLoad
  split
  · rfl
  · split <;> rfl

/-- A LOAD whose header `PARSE` accepts and whose type byte gives a variant builds the cartridge in two steps (R211). -/
theorem run_load {s : State} {src : Source} {bytes : List Byte} {rest : List Request} {h : Header} {v : Variant}
    (hl : s.loading = none) (hq : s.queue = .load src :: rest) (hd : src.deliver = some bytes)
    (hp : parse (headerSlice bytes) = .ok h) (hv : variantOfType h.typeByte = some v) :
    run 2 s = .next { cart := some ⟨Image.ofBytes bytes, h, .afterLoad v⟩, loading := none, queue := rest,
                      reply := some .ok } := by
  have hfirst := (step_load s src rest hl hq).trans (beginLoad_of_parse_ok _ hd h hp)
  exact run_two s _ _ hfirst (step_selector_of_variant _ ⟨Image.ofBytes bytes, h⟩ v rfl hv)

/-- Every byte of the image behind `State.reset` (log 5): the boot header at `HEADER_BASE`, and zeros around it. -/
def bootBytes : List Byte :=
  List.replicate Config.headerBase Memory.unlisted ++
    (Header.boot.toList ++ List.replicate (Config.bootCapacity - (Config.headerBase + 80)) Memory.unlisted)

theorem bootBytes_length : bootBytes.length = Config.bootCapacity := by
  simp only [bootBytes, List.length_append, List.length_replicate, Vector.length_toList, Config.headerBase,
    Config.bootCapacity]

theorem headerSlice_bootBytes : headerSlice bootBytes = Header.boot.toList := by
  rw [headerSlice, bootBytes, List.drop_left' List.length_replicate, List.take_left' Header.boot.length_toList]

/-- The zeros are not listed, so that the image lists what the boot header lists. -/
theorem ofBytes_bootBytes : Image.ofBytes bootBytes = Image.boot := by
  have hcells : Memory.ofBytesFrom 0 bootBytes = Image.boot.cells :=
    calc Memory.ofBytesFrom 0 bootBytes
      _ = Memory.ofBytesFrom Config.headerBase Header.boot.toList := by
        rw [bootBytes, Memory.ofBytesFrom_append, Memory.ofBytesFrom_append, Memory.ofBytesFrom_replicate,
          Memory.ofBytesFrom_replicate, List.nil_append, List.append_nil, List.length_replicate, Nat.zero_add]
      _ = Image.boot.cells := by decide
  rw [Image.ofBytes, bootBytes_length, hcells]
  rfl

end Sys2Proof.Machine
end

section
/-! SUPPORT. Register writes by the window of their address, and the closed gate in either direction (R160 to R164). -/

namespace Sys2Proof.Machine

/-- Each of the four windows decodes to the write of its register (R85, R160 to R163). -/
theorem exists_regWrite (r r' : Mbc1Regs) (p : Addr) (d : Byte)
    (h : (p.toNat ≤ 0x1FFF ∧ r' = r.setRamen d) ∨
      (0x2000 ≤ p.toNat ∧ p.toNat ≤ 0x3FFF ∧ r' = r.setRomb (coerceRomb d)) ∨
      (0x4000 ≤ p.toNat ∧ p.toNat ≤ 0x5FFF ∧ r' = r.setRamb d) ∨
      (0x6000 ≤ p.toNat ∧ p.toNat ≤ 0x7FFF ∧ r' = r.setMode d)) :
    RegWrite r p (decodeMbc1Write p d) r' := by
  rcases h with ⟨hhi, rfl⟩ | ⟨hlo, hhi, rfl⟩ | ⟨hlo, hhi, rfl⟩ | ⟨hlo, hhi, rfl⟩
  · exact decodeMbc1Write_ramen hhi d ▸ .ramen d
  · exact decodeMbc1Write_romb hlo hhi d ▸ .romb d
  · exact decodeMbc1Write_ramb hlo hhi d ▸ .ramb d
  · exact decodeMbc1Write_mode hlo hhi d ▸ .mode d

section
variable {s : State} {c : Cartridge} {r : Mbc1Regs} {a : Addr} {x : Byte} {rest : List Request} (hc : s.HasMbc1 c r)
  (hcap : a.toNat < c.image.capacity)
include hc hcap

/-- A read of the switchable window behind the guard: the offset is validated last (R151, D1). -/
theorem step_readRomx (hnext : s.NextIs (busWord false a x) rest) (hlo : 0x4000 ≤ a.toNat)
    (hhi : a.toNat ≤ 0x7FFF) :
    step s = .next ((s.setQueue rest).setReply (some
      (if romxOff r a < c.image.capacity then .data (c.image.read (romxOff r a)) else .err .addressError))) := by
  rw [step_readRom s c r a x rest hnext hc hhi, romOff, if_neg (by omega), Image.readReply, answer]
  simp only [hcap, true_and]

/-- Behind the guard a closed gate refuses the RAM window in either direction (R152, R164). -/
theorem step_ramWindow_of_closed {b : Bool} (hnext : s.NextIs (busWord b a x) rest) (hlo : 0xA000 ≤ a.toNat)
    (hhi : a.toNat ≤ 0xBFFF) (hclosed : r.ramen &&& 0x0F#8 ≠ 0x0A#8) :
    step s = .next ((s.setQueue rest).setReply (some (.err .ramDisabledError))) := by
  obtain ⟨o, -, hexec⟩ := exec_ramWindow (s := s.setQueue rest) hc hlo hhi b x
  rw [step_mbc1 s c r _ rest hnext hc, hexec, guarded_of_lt c a _ _ hcap, gated_of_closed r _ _ hclosed, raise, answer]

end

end Sys2Proof.Machine
end

section
/-! PROOFS. Reset, LOAD, and what the next request sees (spec/70_reset_and_hazards.md R210 to R215). -/

namespace Sys2Proof.Proofs

open Sys2Proof.Machine

/-- Settles O3: the selector, the idle step and a LOAD always answer, and a transaction answers where a cartridge is. -/
theorem stepStopsOnlyWithoutACartridge : Obligations.StepStopsOnlyWithoutACartridge := by
  intro s
  rcases state_cases s with ⟨l, hl⟩ | ⟨hl, hq⟩ | ⟨hl, src, rest, hq⟩ | ⟨w, rest, hnext⟩
  · obtain ⟨t, ht⟩ := step_selector_answers s l hl
    refine .inl ⟨t, ht, fun _ _ _ hnext => ?_⟩
    cases hl.symm.trans hnext.1
  · refine .inl ⟨s, step_idle s hl hq, fun _ _ _ hnext => ?_⟩
    cases hq.symm.trans hnext.2
  · obtain ⟨t, ht⟩ := beginLoad_answers src (s.setQueue rest)
    refine .inl ⟨t, (step_load s src rest hl hq).trans ht, fun _ _ _ hnext => ?_⟩
    cases hq.symm.trans hnext.2
  · cases hc : s.cart with
    | none => exact .inr ⟨rfl, ⟨w, rest, hnext⟩, step_noCartridge s w rest hnext hc⟩
    | some c =>
      obtain ⟨c', k, hstep, -⟩ := step_bus_answers hnext hc
      exact .inl ⟨_, hstep s.reply, fun _ _ _ _ _ => ⟨k, rfl⟩⟩

/-- Settles O45: the write leaves a state with the new registers, and the next transaction is a step from there. -/
theorem bankSwitchIsSeenAtOnce : Obligations.BankSwitchIsSeenAtOnce := by
  intro s c r r' p d w rest hnext hc hcap hwrite
  have hfirst := step_regWrite hnext hc hcap rfl (exists_regWrite r r' p d hwrite)
  have hrun := (run_succ 1 s _ hfirst).trans (run_one _)
  rw [hrun]
  refine ⟨rfl, ?romx, ?ramRead, ?ramWrite⟩
  case romx =>
    rintro a x rfl hlo hhi ha
    exact step_readRomx (c := c.setRegs r') ⟨rfl, rfl⟩ ha ⟨hnext.1, rfl⟩ hlo hhi
  case ramRead =>
    rintro a x rfl hlo hhi ha
    by_cases hopen : r'.ramen &&& 0x0F#8 = 0x0A#8
    · rw [if_pos hopen]
      exact step_readRam hlo hhi _ (c.setRegs r') x rest ⟨hnext.1, rfl⟩ ⟨rfl, rfl⟩ ha hopen
    · rw [if_neg hopen]
      exact step_ramWindow_of_closed (c := c.setRegs r') ⟨rfl, rfl⟩ ha ⟨hnext.1, rfl⟩ hlo hhi hopen
  case ramWrite =>
    rintro a x rfl hlo hhi ha
    exact ⟨step_writeRam hlo hhi _ (c.setRegs r') x rest ⟨hnext.1, rfl⟩ ⟨rfl, rfl⟩ ha,
      step_ramWindow_of_closed (c := c.setRegs r') ⟨rfl, rfl⟩ ha ⟨hnext.1, rfl⟩ hlo hhi⟩

/-- Settles O47: the bytes at `HEADER_BASE` are a header that `PARSE` accepts, and the selector builds its variant. -/
theorem loadBuildsTheDeliveredCartridge : Obligations.LoadBuildsTheDeliveredCartridge := by
  intro s src bytes rest h v hl hq hsrc _ hh hvalid hv
  have hd : src.deliver = some bytes := by rcases hsrc with rfl | rfl <;> rfl
  have hp : parse (headerSlice bytes) = .ok h := by
    rw [headerSlice_eq bytes h hh, (parse_toList_ok_iff h).mpr hvalid]
  refine ⟨_, run_load hl hq hd hp hv, rfl, Controller.afterLoad_variant v, Image.ofBytes_wf bytes, rfl,
    fun i => Image.read_ofBytes bytes i i.isLt, ?registers⟩
  case registers =>
    rintro rfl
    rfl

/-- Settles O49: the first step empties the slot without a look at it, and the selector answers. -/
theorem loadSharesNothingWithTheOldCartridge : Obligations.LoadSharesNothingWithTheOldCartridge := by
  intro s src rest old hl hq
  refine ⟨?same, fun t l h ht => ⟨?empty, step_selector_answers t l ht⟩⟩
  case same =>
    rw [step_load s src rest hl hq, step_load (s.setCart old) src rest hl hq]
    exact (beginLoad_setCart src (s.setQueue rest) old).symm
  case empty =>
    rw [step_load s src rest hl hq] at h
    rcases beginLoad_next src _ t h with ⟨k, rfl⟩ | ⟨bytes, hdr, -, -, -, -, rfl⟩ <;> rfl

/-- Settles O34: the bytes are the boot header among zeros, which is an MBC1 header that `PARSE` accepts. -/
theorem resetIsWhatLoadLeaves : Obligations.ResetIsWhatLoadLeaves := by
  have hp : parse (headerSlice bootBytes) = .ok Header.boot := by
    rw [headerSlice_bootBytes, parse_toList_ok_iff]
    decide
  have hv : variantOfType Header.boot.typeByte = some .mbc1 := by decide
  refine ⟨bootBytes, (run_load rfl rfl rfl hp hv).trans ?_⟩
  rw [ofBytes_bootBytes]
  rfl

end Sys2Proof.Proofs
end
